-- ==== Sys2Proof/Word.lean ====
section
/-! DEFINITION. The widths of the block's values (R8): words, bytes, register numbers and CSR indices. -/

namespace Sys2Proof

/-- A 32-bit word: a register's value, the PC, an address, an instruction word (R8, R11). -/
abbrev Word := BitVec 32

/-- A 16-bit halfword, and a 16-bit parcel of the instruction stream (R62, R92). -/
abbrev Half := BitVec 16

/-- One byte of memory (R60). -/
abbrev Byte := BitVec 8

/-- A register number, the 5-bit field rd, rs1 or rs2 (R20, R94). -/
abbrev Reg := BitVec 5

/-- A CSR index, the 12-bit field csr (R8, R27, R94). -/
abbrev CsrIndex := BitVec 12

/-- The register file as a value: x0 to x31 (R20). -/
abbrev RegFile := Vector Word 32

end Sys2Proof
end

