-- ==== Sys2Proof/Config.lean ====
section
/-! DEFINITION. The parameters the source leaves open (R9): the image, the reset PC, the ecall
handler and `jalr_clears_bit0`, their types, and the values the model names for `State.reset`. -/

namespace Sys2Proof

/-- What an ecall handler answers (R248, R250). -/
inductive EcallOutcome where
  /-- `Exit(code)`: the run halts with this exit code. -/
  | exit (code : Word)
  /-- `Continue`: the run goes on behind the ECALL. -/
  | goOn
  /-- `Unhandled`: the run ends with `UnhandledEnvironmentCall`. -/
  | unhandled
deriving DecidableEq, Repr, Inhabited

/-- Which ecall handler the run was started with (R9, R250). -/
inductive EcallHandler where
  /-- The reference handler of R250. -/
  | reference
  /-- Any other handler: the function `Config.otherHandler`, of which nothing is known. -/
  | other
deriving DecidableEq, Repr

/-- The start parameters a step reads (R9). No step changes them. DESIGN CHOICE, log 4: they stand
in the state, so that a claim over every state is a claim over every value of them. -/
structure Params where
  /-- `jalr_clears_bit0` of R9 and R151. -/
  jalrClearsBit0 : Bool
  /-- `ecall_handler` of R9 and R250. -/
  ecallHandler : EcallHandler
deriving DecidableEq, Repr

/-- One region of the parameter `image`: a base address and the bytes from there on (R9, R60). -/
structure ImageRegion where
  base : Nat
  bytes : List Byte
deriving DecidableEq, Repr

/-- The handler behind `EcallHandler.other`: a function from the register file (with x0 = 0) to an
outcome (R250). It has no body: nothing can be proved of its answers. DESIGN CHOICE, log 5. -/
opaque Config.otherHandler : RegFile → EcallOutcome

/-- `reset_pc` for `State.reset`. DESIGN CHOICE, log 1: R291 leaves it open; the value of the
source's tests. -/
def Config.resetPc : Word := 0x80000000#32

/-- `image` for `State.reset`: no region is mapped. DESIGN CHOICE, log 2: R293 leaves it open, and a
program is loaded from outside the machine. -/
def Config.image : List ImageRegion := []

/-- The parameters of `State.reset`: the defaults R9 and R250 name. -/
def Config.params : Params := { jalrClearsBit0 := false, ecallHandler := .reference }

end Sys2Proof
end

