-- ==== Sys2Proof/Syntax.lean ====
section
/-! DEFINITION. The instructions: one constructor for each of the 47 rows of spec/opcode_table.json,
with its operands as the decoder delivers them: register numbers, a CSR index, a 5-bit shift amount
or `uimm`, or the 32-bit value of the immediate decoder (R93, R94, R97 to R103). -/

namespace Sys2Proof

/-- An instruction of the block (R96, R105). -/
inductive Instr where
  -- upper immediates; `imm` is immU (R102)
  | lui (rd : Reg) (imm : Word)
  | auipc (rd : Reg) (imm : Word)
  -- jumps; `imm` is immJ (R103) and immI (R99)
  | jal (rd : Reg) (imm : Word)
  | jalr (rd rs1 : Reg) (imm : Word)
  -- branches; `imm` is immB (R101)
  | beq (rs1 rs2 : Reg) (imm : Word)
  | bne (rs1 rs2 : Reg) (imm : Word)
  | blt (rs1 rs2 : Reg) (imm : Word)
  | bge (rs1 rs2 : Reg) (imm : Word)
  | bltu (rs1 rs2 : Reg) (imm : Word)
  | bgeu (rs1 rs2 : Reg) (imm : Word)
  -- loads; `imm` is immI
  | lb (rd rs1 : Reg) (imm : Word)
  | lh (rd rs1 : Reg) (imm : Word)
  | lw (rd rs1 : Reg) (imm : Word)
  | lbu (rd rs1 : Reg) (imm : Word)
  | lhu (rd rs1 : Reg) (imm : Word)
  -- stores; rs2 is the data, rs1 the base, `imm` is immS (R100)
  | sb (rs2 rs1 : Reg) (imm : Word)
  | sh (rs2 rs1 : Reg) (imm : Word)
  | sw (rs2 rs1 : Reg) (imm : Word)
  -- ALU with an immediate; `imm` is immI
  | addi (rd rs1 : Reg) (imm : Word)
  | slti (rd rs1 : Reg) (imm : Word)
  | sltiu (rd rs1 : Reg) (imm : Word)
  | xori (rd rs1 : Reg) (imm : Word)
  | ori (rd rs1 : Reg) (imm : Word)
  | andi (rd rs1 : Reg) (imm : Word)
  | slli (rd rs1 : Reg) (shamt : BitVec 5)
  | srli (rd rs1 : Reg) (shamt : BitVec 5)
  | srai (rd rs1 : Reg) (shamt : BitVec 5)
  -- ALU with registers
  | add (rd rs1 rs2 : Reg)
  | sub (rd rs1 rs2 : Reg)
  | sll (rd rs1 rs2 : Reg)
  | slt (rd rs1 rs2 : Reg)
  | sltu (rd rs1 rs2 : Reg)
  | xor (rd rs1 rs2 : Reg)
  | srl (rd rs1 rs2 : Reg)
  | sra (rd rs1 rs2 : Reg)
  | or (rd rs1 rs2 : Reg)
  | and (rd rs1 rs2 : Reg)
  -- FENCE with every field of its word; it reads none of them (R110)
  | fence (fm pred succ : BitVec 4) (rs1 rd : Reg)
  -- system
  | ecall
  | ebreak
  | mret
  | csrrw (rd : Reg) (csr : CsrIndex) (rs1 : Reg)
  | csrrs (rd : Reg) (csr : CsrIndex) (rs1 : Reg)
  | csrrc (rd : Reg) (csr : CsrIndex) (rs1 : Reg)
  | csrrwi (rd : Reg) (csr : CsrIndex) (uimm : BitVec 5)
  | csrrsi (rd : Reg) (csr : CsrIndex) (uimm : BitVec 5)
  | csrrci (rd : Reg) (csr : CsrIndex) (uimm : BitVec 5)
deriving DecidableEq, Repr

end Sys2Proof
end

