-- ==== Sys2Proof/WellFormed.lean ====
section
/-! DEFINITION. Well-formed instructions: each immediate is a value its format can carry (the ranges
of R99 to R103). Register numbers, CSR indices, shift amounts and `uimm` are in range by their type. -/

namespace Sys2Proof

/-- An I- or S-immediate: -2048 to +2047 (R99, R100). -/
def fitsI (imm : Word) : Bool := decide (-2048 ≤ imm.toInt ∧ imm.toInt ≤ 2047)

/-- A B-immediate: -4096 to +4094, even (R101). -/
def fitsB (imm : Word) : Bool :=
  decide (-4096 ≤ imm.toInt ∧ imm.toInt ≤ 4094 ∧ imm.toInt % 2 = 0)

/-- A U-immediate: any multiple of 4096 (R102). -/
def fitsU (imm : Word) : Bool := decide (imm.toNat % 4096 = 0)

/-- A J-immediate: -1048576 to +1048574, even (R103). -/
def fitsJ (imm : Word) : Bool :=
  decide (-1048576 ≤ imm.toInt ∧ imm.toInt ≤ 1048574 ∧ imm.toInt % 2 = 0)

/-- The instruction can be encoded: its immediate is in its format's range. -/
def wellFormed (i : Instr) : Bool :=
  match i with
  | .lui _ imm | .auipc _ imm => fitsU imm
  | .jal _ imm => fitsJ imm
  | .jalr _ _ imm => fitsI imm
  | .beq _ _ imm | .bne _ _ imm | .blt _ _ imm | .bge _ _ imm | .bltu _ _ imm | .bgeu _ _ imm =>
    fitsB imm
  | .lb _ _ imm | .lh _ _ imm | .lw _ _ imm | .lbu _ _ imm | .lhu _ _ imm => fitsI imm
  | .sb _ _ imm | .sh _ _ imm | .sw _ _ imm => fitsI imm
  | .addi _ _ imm | .slti _ _ imm | .sltiu _ _ imm | .xori _ _ imm | .ori _ _ imm
  | .andi _ _ imm => fitsI imm
  | .slli _ _ _ | .srli _ _ _ | .srai _ _ _ => true
  | .add _ _ _ | .sub _ _ _ | .sll _ _ _ | .slt _ _ _ | .sltu _ _ _ | .xor _ _ _ | .srl _ _ _
  | .sra _ _ _ | .or _ _ _ | .and _ _ _ => true
  | .fence _ _ _ _ _ | .ecall | .ebreak | .mret => true
  | .csrrw _ _ _ | .csrrs _ _ _ | .csrrc _ _ _ => true
  | .csrrwi _ _ _ | .csrrsi _ _ _ | .csrrci _ _ _ => true

end Sys2Proof
end

