-- ==== Sys2Proof/Decode.lean ====
section
/-! DEFINITION. The instruction decoder and the immediate decoder (30_encoding.md), total on any
bytes and rejecting by name; after them the encoder, from the same format tables. -/

namespace Sys2Proof

/-! ## Fields of an instruction word (R94) -/

/-- `w[6:0]`. -/
def opcodeOf (w : Word) : BitVec 7 := w.extractLsb' 0 7

/-- `w[11:7]`. -/
def rdOf (w : Word) : Reg := w.extractLsb' 7 5

/-- `w[14:12]`. -/
def funct3Of (w : Word) : BitVec 3 := w.extractLsb' 12 3

/-- `w[19:15]`. -/
def rs1Of (w : Word) : Reg := w.extractLsb' 15 5

/-- `w[24:20]`. -/
def rs2Of (w : Word) : Reg := w.extractLsb' 20 5

/-- `w[31:25]`. -/
def funct7Of (w : Word) : BitVec 7 := w.extractLsb' 25 7

/-- `w[31:20]`, the CSR index. -/
def csrOf (w : Word) : CsrIndex := w.extractLsb' 20 12

/-- `w[24:20]`, the shift amount of SLLI, SRLI and SRAI (R106). -/
def shamtOf (w : Word) : BitVec 5 := w.extractLsb' 20 5

/-- `w[19:15]`, the immediate of the CSR instructions' I forms. -/
def uimmOf (w : Word) : BitVec 5 := w.extractLsb' 15 5

/-- `w[31:28]`, fm of FENCE (R110). -/
def fmOf (w : Word) : BitVec 4 := w.extractLsb' 28 4

/-- `w[27:24]`, pred of FENCE (R110). -/
def predOf (w : Word) : BitVec 4 := w.extractLsb' 24 4

/-- `w[23:20]`, succ of FENCE (R110). -/
def succOf (w : Word) : BitVec 4 := w.extractLsb' 20 4

/-! ## The immediate decoder (R97 to R103) -/

/-- `sext_from(v, b)` (R13): bits b..0 of v, with bit b copied into every higher bit. -/
def sextFrom (v : Word) (b : Nat) : Word := (v.extractLsb' 0 (b + 1)).signExtend 32

/-- The loop of R97: each slice (hi, lo) takes the next hi-lo+1 bits of w, from bit p downward, and
adds them to the accumulator at bits hi..lo. -/
def immPass (w : Word) : List (Nat × Nat) → Nat → Word → Word
  | [], _, acc => acc
  | (hi, lo) :: slices, p, acc =>
    let n := hi - lo + 1
    immPass w slices (p - n) (acc ||| ((w.extractLsb' (p + 1 - n) n).setWidth 32 <<< lo))

/-- `ImmDecode(w, slices, src, seed, sign_bit)` (R97). -/
def immDecode (w : Word) (slices : List (Nat × Nat)) (src : Nat) (seed : Word)
    (signBit : Option Nat) : Word :=
  let acc := immPass w slices src seed
  match signBit with
  | none => acc
  | some b => sextFrom acc b

/-- The I-immediate (R99). -/
def immI (w : Word) : Word := immDecode w [(11, 0)] 31 0#32 (some 11)

/-- The S-immediate, two passes of the decoder (R98, R100). -/
def immS (w : Word) : Word :=
  immDecode w [(4, 0)] 11 (immDecode w [(11, 5)] 31 0#32 (some 11)) (some 11)

/-- The B-immediate, two passes of the decoder (R98, R101). -/
def immB (w : Word) : Word :=
  immDecode w [(4, 1), (11, 11)] 11 (immDecode w [(12, 12), (10, 5)] 31 0#32 (some 12)) (some 12)

/-- The U-immediate (R102). -/
def immU (w : Word) : Word := immDecode w [(31, 12)] 31 0#32 none

/-- The J-immediate (R103). -/
def immJ (w : Word) : Word :=
  immDecode w [(20, 20), (10, 1), (11, 11), (19, 12)] 31 0#32 (some 20)

/-! ## Decode (R105), one function for each major opcode of more than one instruction -/

/-- BRANCH, opcode 0b1100011. -/
def decodeBranch (w : Word) : Option Instr :=
  if funct3Of w = 0b000#3 then some (.beq (rs1Of w) (rs2Of w) (immB w))
  else if funct3Of w = 0b001#3 then some (.bne (rs1Of w) (rs2Of w) (immB w))
  else if funct3Of w = 0b100#3 then some (.blt (rs1Of w) (rs2Of w) (immB w))
  else if funct3Of w = 0b101#3 then some (.bge (rs1Of w) (rs2Of w) (immB w))
  else if funct3Of w = 0b110#3 then some (.bltu (rs1Of w) (rs2Of w) (immB w))
  else if funct3Of w = 0b111#3 then some (.bgeu (rs1Of w) (rs2Of w) (immB w))
  else none

/-- LOAD, opcode 0b0000011. -/
def decodeLoad (w : Word) : Option Instr :=
  if funct3Of w = 0b000#3 then some (.lb (rdOf w) (rs1Of w) (immI w))
  else if funct3Of w = 0b001#3 then some (.lh (rdOf w) (rs1Of w) (immI w))
  else if funct3Of w = 0b010#3 then some (.lw (rdOf w) (rs1Of w) (immI w))
  else if funct3Of w = 0b100#3 then some (.lbu (rdOf w) (rs1Of w) (immI w))
  else if funct3Of w = 0b101#3 then some (.lhu (rdOf w) (rs1Of w) (immI w))
  else none

/-- STORE, opcode 0b0100011. -/
def decodeStore (w : Word) : Option Instr :=
  if funct3Of w = 0b000#3 then some (.sb (rs2Of w) (rs1Of w) (immS w))
  else if funct3Of w = 0b001#3 then some (.sh (rs2Of w) (rs1Of w) (immS w))
  else if funct3Of w = 0b010#3 then some (.sw (rs2Of w) (rs1Of w) (immS w))
  else none

/-- OP-IMM, opcode 0b0010011; the shifts check funct7 (R106). -/
def decodeOpImm (w : Word) : Option Instr :=
  if funct3Of w = 0b000#3 then some (.addi (rdOf w) (rs1Of w) (immI w))
  else if funct3Of w = 0b010#3 then some (.slti (rdOf w) (rs1Of w) (immI w))
  else if funct3Of w = 0b011#3 then some (.sltiu (rdOf w) (rs1Of w) (immI w))
  else if funct3Of w = 0b100#3 then some (.xori (rdOf w) (rs1Of w) (immI w))
  else if funct3Of w = 0b110#3 then some (.ori (rdOf w) (rs1Of w) (immI w))
  else if funct3Of w = 0b111#3 then some (.andi (rdOf w) (rs1Of w) (immI w))
  else if funct3Of w = 0b001#3 then
    if funct7Of w = 0b0000000#7 then some (.slli (rdOf w) (rs1Of w) (shamtOf w)) else none
  else
    if funct7Of w = 0b0000000#7 then some (.srli (rdOf w) (rs1Of w) (shamtOf w))
    else if funct7Of w = 0b0100000#7 then some (.srai (rdOf w) (rs1Of w) (shamtOf w))
    else none

/-- OP, opcode 0b0110011, dispatched on funct7 and funct3. -/
def decodeOp (w : Word) : Option Instr :=
  if funct7Of w = 0b0000000#7 then
    if funct3Of w = 0b000#3 then some (.add (rdOf w) (rs1Of w) (rs2Of w))
    else if funct3Of w = 0b001#3 then some (.sll (rdOf w) (rs1Of w) (rs2Of w))
    else if funct3Of w = 0b010#3 then some (.slt (rdOf w) (rs1Of w) (rs2Of w))
    else if funct3Of w = 0b011#3 then some (.sltu (rdOf w) (rs1Of w) (rs2Of w))
    else if funct3Of w = 0b100#3 then some (.xor (rdOf w) (rs1Of w) (rs2Of w))
    else if funct3Of w = 0b101#3 then some (.srl (rdOf w) (rs1Of w) (rs2Of w))
    else if funct3Of w = 0b110#3 then some (.or (rdOf w) (rs1Of w) (rs2Of w))
    else some (.and (rdOf w) (rs1Of w) (rs2Of w))
  else if funct7Of w = 0b0100000#7 then
    if funct3Of w = 0b000#3 then some (.sub (rdOf w) (rs1Of w) (rs2Of w))
    else if funct3Of w = 0b101#3 then some (.sra (rdOf w) (rs1Of w) (rs2Of w))
    else none
  else none

/-- SYSTEM, opcode 0b1110011; ECALL, EBREAK and MRET are whole words. -/
def decodeSystem (w : Word) : Option Instr :=
  if funct3Of w = 0b000#3 then
    if w = 0x00000073#32 then some .ecall
    else if w = 0x00100073#32 then some .ebreak
    else if w = 0x30200073#32 then some .mret
    else none
  else if funct3Of w = 0b001#3 then some (.csrrw (rdOf w) (csrOf w) (rs1Of w))
  else if funct3Of w = 0b010#3 then some (.csrrs (rdOf w) (csrOf w) (rs1Of w))
  else if funct3Of w = 0b011#3 then some (.csrrc (rdOf w) (csrOf w) (rs1Of w))
  else if funct3Of w = 0b101#3 then some (.csrrwi (rdOf w) (csrOf w) (uimmOf w))
  else if funct3Of w = 0b110#3 then some (.csrrsi (rdOf w) (csrOf w) (uimmOf w))
  else if funct3Of w = 0b111#3 then some (.csrrci (rdOf w) (csrOf w) (uimmOf w))
  else none

/-- `Decode(w)` (R105): the instruction of a 32-bit word, or `none`. -/
def decodeWord (w : Word) : Option Instr :=
  if opcodeOf w = 0b0110111#7 then some (.lui (rdOf w) (immU w))
  else if opcodeOf w = 0b0010111#7 then some (.auipc (rdOf w) (immU w))
  else if opcodeOf w = 0b1101111#7 then some (.jal (rdOf w) (immJ w))
  else if opcodeOf w = 0b1100111#7 then
    if funct3Of w = 0b000#3 then some (.jalr (rdOf w) (rs1Of w) (immI w)) else none
  else if opcodeOf w = 0b1100011#7 then decodeBranch w
  else if opcodeOf w = 0b0000011#7 then decodeLoad w
  else if opcodeOf w = 0b0100011#7 then decodeStore w
  else if opcodeOf w = 0b0010011#7 then decodeOpImm w
  else if opcodeOf w = 0b0110011#7 then decodeOp w
  else if opcodeOf w = 0b0001111#7 then
    if funct3Of w = 0b000#3 then
      some (.fence (fmOf w) (predOf w) (succOf w) (rs1Of w) (rdOf w))
    else none
  else if opcodeOf w = 0b1110011#7 then decodeSystem w
  else none

/-! ## Decoding bytes -/

/-- Why bytes are no instruction. -/
inductive Reject where
  /-- The bytes end before the instruction does; a fetch of mapped memory never gives this. -/
  | truncated
  /-- A 16-bit parcel, which never executes (R92). -/
  | parcel16 (parcel : Half)
  /-- A 32-bit word that `Decode` maps to none (R107). -/
  | illegalWord (w : Word)
deriving DecidableEq, Repr

/-- What the decoder makes of a list of bytes: an instruction and the bytes after it, or the reason
there is none. -/
inductive DecodeResult where
  | instr (i : Instr) (rest : List Byte)
  | rejected (r : Reject)
deriving DecidableEq, Repr

/-- The length of the instruction whose first byte is b: 2 when the low two bits are not 0b11, else 4
(R91). -/
def instrLength (b : Byte) : Nat := if b.extractLsb' 0 2 = 0b11#2 then 4 else 2

/-- The little-endian halfword of two bytes, the lower address first: `b1 ++ b0` (R62, R65). -/
def halfOfBytes (b0 b1 : Byte) : Half := b0.setWidth 16 ||| b1.setWidth 16 <<< 8

/-- The little-endian word of four bytes, the lowest address first: `b3 ++ b2 ++ b1 ++ b0` (R62, R65). -/
def wordOfBytes (b0 b1 b2 b3 : Byte) : Word :=
  b0.setWidth 32 ||| b1.setWidth 32 <<< 8 ||| b2.setWidth 32 <<< 16 ||| b3.setWidth 32 <<< 24

/-- The four bytes of a word, least significant first (R63, R65). -/
def bytesOfWord (w : Word) : List Byte :=
  [w.extractLsb' 0 8, w.extractLsb' 8 8, w.extractLsb' 16 8, w.extractLsb' 24 8]

/-- Decode the instruction at the front of a list of bytes (R91, R92, R105). -/
def decode (bytes : List Byte) : DecodeResult :=
  match bytes with
  | b0 :: b1 :: rest =>
    if instrLength b0 = 2 then .rejected (.parcel16 (halfOfBytes b0 b1))
    else
      match rest with
      | b2 :: b3 :: rest' =>
        match decodeWord (wordOfBytes b0 b1 b2 b3) with
        | some i => .instr i rest'
        | none => .rejected (.illegalWord (wordOfBytes b0 b1 b2 b3))
      | _ => .rejected .truncated
  | _ => .rejected .truncated

/-- The instruction word a step reports for rejected bytes: a 16-bit parcel zero-extended to 32
bits (R92, R260). -/
def Reject.word (r : Reject) : Word :=
  match r with
  | .truncated => 0#32
  | .parcel16 p => p.setWidth 32
  | .illegalWord w => w

/-- The word of a row of the opcode table, numbered with bit 0 the least significant bit of the
instruction; the bits at and above nbits are 0. -/
def tableWord (nbits w : Nat) : Word := BitVec.ofNat 32 (w % 2 ^ nbits)

/-- The instruction the decoder reads from a table word laid out as the hardware stores it. -/
def decodeTableWord (nbits w : Nat) : Option Instr :=
  match decode (bytesOfWord (tableWord nbits w)) with
  | .instr i _ => some i
  | .rejected _ => none

/-! ## The encoder: each format puts its fields at the bit positions of R93 -/

/-- A field of n bits whose lowest bit is bit lo of the word. -/
def fieldAt {n : Nat} (v : BitVec n) (lo : Nat) : Word := v.setWidth 32 <<< lo

/-- The R format; the shifts by an immediate are laid out so too, with shamt in the place of rs2. -/
def rFormat (f7 : BitVec 7) (rs2 rs1 : Reg) (f3 : BitVec 3) (rd : Reg) (op : BitVec 7) : Word :=
  fieldAt f7 25 ||| fieldAt rs2 20 ||| fieldAt rs1 15 ||| fieldAt f3 12 ||| fieldAt rd 7 |||
    fieldAt op 0

/-- The I format, with the 12 bits [31:20] as one field. -/
def iFormat (field : BitVec 12) (rs1 : Reg) (f3 : BitVec 3) (rd : Reg) (op : BitVec 7) : Word :=
  fieldAt field 20 ||| fieldAt rs1 15 ||| fieldAt f3 12 ||| fieldAt rd 7 ||| fieldAt op 0

/-- FENCE: the I format with the field [31:20] made of fm, pred and succ (R110). -/
def fenceFormat (fm pred succ : BitVec 4) (rs1 : Reg) (f3 : BitVec 3) (rd : Reg) (op : BitVec 7) :
    Word :=
  fieldAt fm 28 ||| fieldAt pred 24 ||| fieldAt succ 20 ||| fieldAt rs1 15 ||| fieldAt f3 12 |||
    fieldAt rd 7 ||| fieldAt op 0

/-- The S format. -/
def sFormat (imm : Word) (rs2 rs1 : Reg) (f3 : BitVec 3) (op : BitVec 7) : Word :=
  fieldAt (imm.extractLsb' 5 7) 25 ||| fieldAt rs2 20 ||| fieldAt rs1 15 ||| fieldAt f3 12 |||
    fieldAt (imm.extractLsb' 0 5) 7 ||| fieldAt op 0

/-- The B format. -/
def bFormat (imm : Word) (rs2 rs1 : Reg) (f3 : BitVec 3) (op : BitVec 7) : Word :=
  fieldAt (imm.extractLsb' 12 1) 31 ||| fieldAt (imm.extractLsb' 5 6) 25 ||| fieldAt rs2 20 |||
    fieldAt rs1 15 ||| fieldAt f3 12 ||| fieldAt (imm.extractLsb' 1 4) 8 |||
    fieldAt (imm.extractLsb' 11 1) 7 ||| fieldAt op 0

/-- The U format. -/
def uFormat (imm : Word) (rd : Reg) (op : BitVec 7) : Word :=
  fieldAt (imm.extractLsb' 12 20) 12 ||| fieldAt rd 7 ||| fieldAt op 0

/-- The J format. -/
def jFormat (imm : Word) (rd : Reg) (op : BitVec 7) : Word :=
  fieldAt (imm.extractLsb' 20 1) 31 ||| fieldAt (imm.extractLsb' 1 10) 21 |||
    fieldAt (imm.extractLsb' 11 1) 20 ||| fieldAt (imm.extractLsb' 12 8) 12 ||| fieldAt rd 7 |||
    fieldAt op 0

/-- The 12-bit field of an I-immediate (R93, R99). -/
def field12 (imm : Word) : BitVec 12 := imm.extractLsb' 0 12

/-- The word of a well-formed instruction (R93, R96, R105). -/
def encode (i : Instr) : Word :=
  match i with
  | .lui rd imm => uFormat imm rd 0b0110111#7
  | .auipc rd imm => uFormat imm rd 0b0010111#7
  | .jal rd imm => jFormat imm rd 0b1101111#7
  | .jalr rd rs1 imm => iFormat (field12 imm) rs1 0b000#3 rd 0b1100111#7
  | .beq rs1 rs2 imm => bFormat imm rs2 rs1 0b000#3 0b1100011#7
  | .bne rs1 rs2 imm => bFormat imm rs2 rs1 0b001#3 0b1100011#7
  | .blt rs1 rs2 imm => bFormat imm rs2 rs1 0b100#3 0b1100011#7
  | .bge rs1 rs2 imm => bFormat imm rs2 rs1 0b101#3 0b1100011#7
  | .bltu rs1 rs2 imm => bFormat imm rs2 rs1 0b110#3 0b1100011#7
  | .bgeu rs1 rs2 imm => bFormat imm rs2 rs1 0b111#3 0b1100011#7
  | .lb rd rs1 imm => iFormat (field12 imm) rs1 0b000#3 rd 0b0000011#7
  | .lh rd rs1 imm => iFormat (field12 imm) rs1 0b001#3 rd 0b0000011#7
  | .lw rd rs1 imm => iFormat (field12 imm) rs1 0b010#3 rd 0b0000011#7
  | .lbu rd rs1 imm => iFormat (field12 imm) rs1 0b100#3 rd 0b0000011#7
  | .lhu rd rs1 imm => iFormat (field12 imm) rs1 0b101#3 rd 0b0000011#7
  | .sb rs2 rs1 imm => sFormat imm rs2 rs1 0b000#3 0b0100011#7
  | .sh rs2 rs1 imm => sFormat imm rs2 rs1 0b001#3 0b0100011#7
  | .sw rs2 rs1 imm => sFormat imm rs2 rs1 0b010#3 0b0100011#7
  | .addi rd rs1 imm => iFormat (field12 imm) rs1 0b000#3 rd 0b0010011#7
  | .slti rd rs1 imm => iFormat (field12 imm) rs1 0b010#3 rd 0b0010011#7
  | .sltiu rd rs1 imm => iFormat (field12 imm) rs1 0b011#3 rd 0b0010011#7
  | .xori rd rs1 imm => iFormat (field12 imm) rs1 0b100#3 rd 0b0010011#7
  | .ori rd rs1 imm => iFormat (field12 imm) rs1 0b110#3 rd 0b0010011#7
  | .andi rd rs1 imm => iFormat (field12 imm) rs1 0b111#3 rd 0b0010011#7
  | .slli rd rs1 sh => rFormat 0b0000000#7 sh rs1 0b001#3 rd 0b0010011#7
  | .srli rd rs1 sh => rFormat 0b0000000#7 sh rs1 0b101#3 rd 0b0010011#7
  | .srai rd rs1 sh => rFormat 0b0100000#7 sh rs1 0b101#3 rd 0b0010011#7
  | .add rd rs1 rs2 => rFormat 0b0000000#7 rs2 rs1 0b000#3 rd 0b0110011#7
  | .sub rd rs1 rs2 => rFormat 0b0100000#7 rs2 rs1 0b000#3 rd 0b0110011#7
  | .sll rd rs1 rs2 => rFormat 0b0000000#7 rs2 rs1 0b001#3 rd 0b0110011#7
  | .slt rd rs1 rs2 => rFormat 0b0000000#7 rs2 rs1 0b010#3 rd 0b0110011#7
  | .sltu rd rs1 rs2 => rFormat 0b0000000#7 rs2 rs1 0b011#3 rd 0b0110011#7
  | .xor rd rs1 rs2 => rFormat 0b0000000#7 rs2 rs1 0b100#3 rd 0b0110011#7
  | .srl rd rs1 rs2 => rFormat 0b0000000#7 rs2 rs1 0b101#3 rd 0b0110011#7
  | .sra rd rs1 rs2 => rFormat 0b0100000#7 rs2 rs1 0b101#3 rd 0b0110011#7
  | .or rd rs1 rs2 => rFormat 0b0000000#7 rs2 rs1 0b110#3 rd 0b0110011#7
  | .and rd rs1 rs2 => rFormat 0b0000000#7 rs2 rs1 0b111#3 rd 0b0110011#7
  | .fence fm pred succ rs1 rd => fenceFormat fm pred succ rs1 0b000#3 rd 0b0001111#7
  | .ecall => iFormat 0x000#12 0#5 0b000#3 0#5 0b1110011#7
  | .ebreak => iFormat 0x001#12 0#5 0b000#3 0#5 0b1110011#7
  | .mret => iFormat 0x302#12 0#5 0b000#3 0#5 0b1110011#7
  | .csrrw rd csr rs1 => iFormat csr rs1 0b001#3 rd 0b1110011#7
  | .csrrs rd csr rs1 => iFormat csr rs1 0b010#3 rd 0b1110011#7
  | .csrrc rd csr rs1 => iFormat csr rs1 0b011#3 rd 0b1110011#7
  | .csrrwi rd csr uimm => iFormat csr uimm 0b101#3 rd 0b1110011#7
  | .csrrsi rd csr uimm => iFormat csr uimm 0b110#3 rd 0b1110011#7
  | .csrrci rd csr uimm => iFormat csr uimm 0b111#3 rd 0b1110011#7

/-- The bytes of a well-formed instruction as memory holds them. -/
def encodeBytes (i : Instr) : List Byte := bytesOfWord (encode i)

end Sys2Proof
end

