-- ==== Sys2Proof/Machine/Sparse.lean ====
section
/-! DEFINITION. Sparse stores: a total map from keys to bit vectors, held as a list of (key, value)
pairs in one canonical form. The memory's bytes and the CSR store are such lists. -/

namespace Sys2Proof.Machine

/-- The value at key k; a key the list does not hold reads as d. -/
def Sparse.read {w : Nat} (d : BitVec w) : List (Nat × BitVec w) → Nat → BitVec w
  | [], _ => d
  | (j, v) :: cells, k => if j = k then v else Sparse.read d cells k

/-- The list without key k. -/
def Sparse.erase {w : Nat} : List (Nat × BitVec w) → Nat → List (Nat × BitVec w)
  | [], _ => []
  | (j, v) :: cells, k => if j = k then Sparse.erase cells k else (j, v) :: Sparse.erase cells k

/-- The list with (k, v) put before the first greater key. -/
def Sparse.insert {w : Nat} : List (Nat × BitVec w) → Nat → BitVec w → List (Nat × BitVec w)
  | [], k, v => [(k, v)]
  | (j, x) :: cells, k, v =>
    if k < j then (k, v) :: (j, x) :: cells else (j, x) :: Sparse.insert cells k v

/-- Store v at key k. Storing d, which an unlisted key reads as, takes the entry out. -/
def Sparse.write {w : Nat} (d : BitVec w) (cells : List (Nat × BitVec w)) (k : Nat)
    (v : BitVec w) : List (Nat × BitVec w) :=
  if v = d then Sparse.erase cells k else Sparse.insert (Sparse.erase cells k) k v

/-- The canonical form above a lower bound: keys rise strictly from lo on and no value is d. -/
def Sparse.wfFrom {w : Nat} (d : BitVec w) : Nat → List (Nat × BitVec w) → Bool
  | _, [] => true
  | lo, (k, v) :: cells => decide (lo ≤ k) && decide (v ≠ d) && Sparse.wfFrom d (k + 1) cells

/-- The canonical form: keys rise strictly and no entry equals what an unlisted key reads as. -/
def Sparse.wf {w : Nat} (d : BitVec w) (cells : List (Nat × BitVec w)) : Bool :=
  Sparse.wfFrom d 0 cells

end Sys2Proof.Machine
end

