-- ==== Sys2Proof/Machine/Memory.lean ====
section
/-! DEFINITION. The memory behind the memory interface (20_memory.md): mapped regions and their
bytes, the span rule, the reads and writes of 1, 2 and 4 bytes, and the memory of an image. -/

namespace Sys2Proof.Machine

/-- A mapped region: the `size` bytes from address `base` on (R60). -/
structure Region where
  base : Nat
  size : Nat
deriving DecidableEq, Repr

/-- The memory image (R60): the regions, whose set no step changes, and the bytes, as a list of
(address, byte) in the canonical form `Memory.wf`. -/
structure Memory where
  regions : List Region
  cells : List Host.Cell
deriving DecidableEq, Repr

/-- What a mapped address that the list does not hold reads as. DESIGN CHOICE of representation, log
3: the image gives every mapped byte, and its zero bytes are the ones not listed. An UNMAPPED byte
has no value (R60): no read ever delivers one. -/
def unlistedByte : Byte := 0#8

/-- The region holds all n bytes from address a on. -/
def Region.covers (r : Region) (a n : Nat) : Bool :=
  decide (r.base ≤ a) && decide (a + n ≤ r.base + r.size)

/-- The span rule (R61): ONE region holds every byte of the span, and the span does not pass
0xFFFF_FFFF. -/
def Memory.covered (m : Memory) (a : Word) (n : Nat) : Bool :=
  decide (a.toNat + n ≤ 2 ^ 32) && m.regions.any (fun r => r.covers a.toNat n)

/-- The byte listed for address k, whether or not k is mapped. -/
def Memory.cell (m : Memory) (k : Nat) : Byte := Sparse.read unlistedByte m.cells k

/-- `read_byte` (R40, R62); `none` is the failure `UnmappedAddress`. -/
def Memory.readByte (m : Memory) (a : Word) : Option Byte :=
  if m.covered a 1 then some (m.cell a.toNat) else none

/-- `read_halfword` (R40, R62), little-endian (R65). -/
def Memory.readHalf (m : Memory) (a : Word) : Option Half :=
  if m.covered a 2 then some (halfOfBytes (m.cell a.toNat) (m.cell (a.toNat + 1))) else none

/-- `read_word` (R40, R62), little-endian (R65). -/
def Memory.readWord (m : Memory) (a : Word) : Option Word :=
  if m.covered a 4 then
    some (wordOfBytes (m.cell a.toNat) (m.cell (a.toNat + 1)) (m.cell (a.toNat + 2))
      (m.cell (a.toNat + 3)))
  else none

/-- Bytes laid one after another into a list of cells, the first at address k. -/
def Memory.layBytes (cells : List Host.Cell) (k : Nat) : List Byte → List Host.Cell
  | [] => cells
  | b :: bytes => Memory.layBytes (Sparse.write unlistedByte cells k b) (k + 1) bytes

/-- Write a run of bytes at address a, or fail and write none of them (R61, R63). -/
def Memory.writeBytes (m : Memory) (a : Word) (bytes : List Byte) : Option Memory :=
  if m.covered a bytes.length then
    some { m with cells := Memory.layBytes m.cells a.toNat bytes }
  else none

/-- `write_byte` (R40, R63): the low byte of v. -/
def Memory.writeByte (m : Memory) (a v : Word) : Option Memory :=
  m.writeBytes a [v.extractLsb' 0 8]

/-- `write_halfword` (R40, R63): the low two bytes of v, little-endian. -/
def Memory.writeHalf (m : Memory) (a v : Word) : Option Memory :=
  m.writeBytes a [v.extractLsb' 0 8, v.extractLsb' 8 8]

/-- `write_word` (R40, R63): the four bytes of v, little-endian. -/
def Memory.writeWord (m : Memory) (a v : Word) : Option Memory := m.writeBytes a (bytesOfWord v)

/-! ## The memory of an image -/

/-- Lay the bytes of an image's regions into a list of cells. -/
def Memory.layImage (cells : List Host.Cell) : List ImageRegion → List Host.Cell
  | [] => cells
  | r :: image => Memory.layImage (Memory.layBytes cells r.base r.bytes) image

/-- The memory at run start: the mapped regions of the image with their initial bytes (R290). -/
def Memory.ofImage (image : List ImageRegion) : Memory :=
  { regions := image.map (fun r => { base := r.base, size := r.bytes.length })
    cells := Memory.layImage [] image }

/-- Regions in one canonical form from an address on: none empty, rising, disjoint, and inside the
address space (R60). Adjacent regions stay separate (R61). -/
def regionsFrom : Nat → List Region → Bool
  | _, [] => true
  | lo, r :: regions =>
    decide (lo ≤ r.base) && decide (0 < r.size) && decide (r.base + r.size ≤ 2 ^ 32) &&
      regionsFrom (r.base + r.size) regions

/-- The image is a list of disjoint regions of at least one byte, in rising order, inside the address
space (R9). -/
def imageWf (image : List ImageRegion) : Bool :=
  regionsFrom 0 (image.map (fun r => { base := r.base, size := r.bytes.length }))

/-- Every listed cell lies in a region. -/
def cellsMapped (regions : List Region) (cells : List Host.Cell) : Bool :=
  cells.all (fun c => regions.any (fun r => r.covers c.1 1))

/-- The canonical form of a memory: regions rising and disjoint, listed bytes at strictly rising
mapped addresses, none of them equal to what an unlisted address reads as. -/
def Memory.wf (m : Memory) : Bool :=
  regionsFrom 0 m.regions && Sparse.wf unlistedByte m.cells && cellsMapped m.regions m.cells

/-! ## Mapping a span from outside, for a loader (log 2) -/

/-- The regions with the addresses from lo up to hi mapped in one region: regions that meet the span
are joined with it into one. -/
def joinSpan : List Region → Nat → Nat → List Region
  | [], lo, hi => [{ base := lo, size := hi - lo }]
  | r :: regions, lo, hi =>
    if r.base + r.size ≤ lo then r :: joinSpan regions lo hi
    else if hi ≤ r.base then { base := lo, size := hi - lo } :: r :: regions
    else joinSpan regions (min lo r.base) (max hi (r.base + r.size))

/-- The regions with one that holds the n bytes from address k on; unchanged if one does already. -/
def mapRegions (regions : List Region) (k n : Nat) : List Region :=
  if regions.any (fun r => r.covers k n) then regions else joinSpan regions k (k + n)

/-- The memory with bytes placed from outside at address k, mapped if they were not. No step does
this: it stands for loading a program (log 2). -/
def Memory.place (m : Memory) (k : Nat) (bytes : List Byte) : Memory :=
  { regions := mapRegions m.regions k bytes.length
    cells := Memory.layBytes m.cells k bytes }

end Sys2Proof.Machine
end

