-- ==== Sys2Proof/Machine/State.lean ====
section
/-! DEFINITION. The state of the block (R44), the faults it names (R260), the ways a step can stop,
and the state at run start (R290). -/

namespace Sys2Proof.Machine

/-- What an access to memory was for (R61, R260). -/
inductive AccessKind where
  | fetch
  | load
  | store
deriving DecidableEq, Repr

/-- The faults of the block, a closed list (R260). -/
inductive FaultReason where
  /-- Raised by a 16-bit parcel, by a word that does not decode, and by EBREAK. -/
  | illegalInstruction (pc : Word) (word : Word)
  /-- Raised by the fetch of any step, by the loads and by the stores; the first address of the span. -/
  | unmappedAddress (address : Word) (kind : AccessKind)
  /-- Raised by ECALL when the handler does not know the request. -/
  | unhandledEnvironmentCall
deriving DecidableEq, Repr

/-- The run status (R32). -/
inductive RunStatus where
  | running
  | halted (exitCode : Word)
  | faulted (reason : FaultReason)
deriving DecidableEq, Repr

/-- Why a step stops. A fault of the BLOCK (R260) is no stop of the model: it is a next state whose
run status is `faulted` (R262, log 6). -/
inductive Fault where
  /-- Raised by `step` in a state whose run status is `halted`: no step is taken there (R43). Safe:
  the model stops where the block does. -/
  | runHalted (exitCode : Word)
  /-- Raised by `step` in a state whose run status is `faulted`: no step is taken there (R43). Safe:
  the model stops where the block does. -/
  | runFaulted (reason : FaultReason)
deriving DecidableEq, Repr

/-- Why an instruction has no meaning. -/
inductive Refusal where
  /-- Raised by `exec` for an instruction that is not modelled; safe, since nothing is claimed of it.
  No instruction of this model is refused so. -/
  | notModelled (mnemonic : String)
deriving DecidableEq, Repr

/-- The CSR store as a list of (index, value) in canonical form: an index not listed holds 0 (R27). -/
abbrev CsrStore := List (Nat × Word)

/-- The state of the block: register file, PC, CSR store and run status (R44), the memory its
interface reaches (R60), and the start parameters a step reads (R9, log 4). -/
structure State where
  regs : RegFile
  pc : Word
  csrs : CsrStore
  status : RunStatus
  mem : Memory
  params : Params
deriving DecidableEq, Repr

/-- The state at run start for an image, a reset PC and start parameters (R290, R293). -/
def State.start (image : List ImageRegion) (resetPc : Word) (params : Params) : State :=
  { regs := Vector.replicate 32 0#32
    pc := resetPc
    csrs := []
    status := .running
    mem := Memory.ofImage image
    params := params }

/-- The machine right after reset, with the parameters the model names (log 1, 2, 4). -/
def State.reset : State := State.start Config.image Config.resetPc Config.params

end Sys2Proof.Machine
end

