-- ==== Sys2Proof/Machine/Ops.lean ====
section
/-! DEFINITION. The named operations over registers, the CSR store and memory; the two ends of a
step that completes (`retire`, `halt`); raising a fault, and the return beside it. -/

namespace Sys2Proof.Machine

/-- What a step ends in. -/
abbrev StepOutcome := Host.Outcome State Fault Refusal

/-! ## Registers -/

/-- `x[i]` (R21): x0 always reads 0. -/
def readReg (r : Reg) (s : State) : Word :=
  if r = 0#5 then 0#32 else s.regs[r.toNat]'(r.isLt)

/-- `x[i] <- v` (R22): stores v in every register, x0 included; `retire` masks x0 afterwards. -/
def writeReg (r : Reg) (v : Word) (s : State) : State :=
  { s with regs := s.regs.set r.toNat v r.isLt }

/-- The end-of-step mask (R23): x0 is forced back to 0. -/
def maskX0 (s : State) : State := { s with regs := s.regs.set 0 0#32 (by decide) }

/-! ## The ends of a step (R42, steps 5 and 6) -/

/-- An instruction that completes: x0 is masked and the PC takes the target. -/
def retire (target : Word) (s : State) : State := { maskX0 s with pc := target }

/-- The address behind the instruction, `pc + len`; every instruction that executes has length 4
(R33, R92). -/
def nextPc (s : State) : Word := s.pc + 4#32

/-- An instruction that writes v to rd and goes on behind itself. -/
def retireWith (rd : Reg) (v : Word) (s : State) : State := retire (nextPc s) (writeReg rd v s)

/-- `halt(code)` (R15, R249): the status is Halted(code) and the PC stays. The step does not fault,
so x0 is masked (R23, log 7). -/
def halt (code : Word) (s : State) : State := { maskX0 s with status := .halted code }

/-! ## Raising a fault, and the return -/

/-- `raise F(info)` (R262, R263): the run status becomes Faulted, and nothing else changes. This is
all of trap entry in this block (R264). -/
def raise (reason : FaultReason) (s : State) : State := { s with status := .faulted reason }

/-- The index of mepc, the one CSR with a role (R35). -/
def mepcIndex : CsrIndex := 0x341#12

/-! ## The CSR store (R28 to R31) -/

/-- `read(idx)`. -/
def csrRead (idx : CsrIndex) (c : CsrStore) : Word := Sparse.read 0#32 c idx.toNat

/-- The store with v at idx. -/
def csrWrite (idx : CsrIndex) (v : Word) (c : CsrStore) : CsrStore :=
  Sparse.write 0#32 c idx.toNat v

/-- `read_then_replace(idx, v)`: the old value, and the store after. -/
def readThenReplace (idx : CsrIndex) (v : Word) (c : CsrStore) : Word × CsrStore :=
  (csrRead idx c, csrWrite idx v c)

/-- `read_then_set(idx, bits)`. -/
def readThenSet (idx : CsrIndex) (bits : Word) (c : CsrStore) : Word × CsrStore :=
  (csrRead idx c, csrWrite idx (csrRead idx c ||| bits) c)

/-- `read_then_clear(idx, bits)`. -/
def readThenClear (idx : CsrIndex) (bits : Word) (c : CsrStore) : Word × CsrStore :=
  (csrRead idx c, csrWrite idx (csrRead idx c &&& ~~~bits) c)

/-- Trap return (R252, R265): the PC takes CSR[mepc] and nothing else changes. -/
def trapReturn (s : State) : State := retire (csrRead mepcIndex s.csrs) s

/-- The end of a CSR instruction: the store after the operation, and the old value in rd. -/
def retireCsr (rd : Reg) (result : Word × CsrStore) (s : State) : State :=
  retireWith rd result.1 { s with csrs := result.2 }

/-! ## Loads and stores -/

/-- The end of a load from address a: the value read goes to rd, or the read failed (R62, R263). -/
def finishLoad (rd : Reg) (a : Word) (value : Option Word) (s : State) : StepOutcome :=
  match value with
  | some v => .next (retireWith rd v s)
  | none => .next (raise (.unmappedAddress a .load) s)

/-- The end of a store to address a: the memory after the write, or the write failed and wrote
nothing (R63, R263). -/
def finishStore (a : Word) (mem : Option Memory) (s : State) : StepOutcome :=
  match mem with
  | some m => .next (retire (nextPc s) { s with mem := m })
  | none => .next (raise (.unmappedAddress a .store) s)

end Sys2Proof.Machine
end

