-- ==== Sys2Proof/Machine/Operands.lean ====
section
/-! DEFINITION. Operand forms: the effective address of loads, stores and JALR, the PC-relative
target, the 5-bit operands, and the ALU (40_alu.md). -/

namespace Sys2Proof.Machine

/-- `x[rs1] + imm`, modulo 2^32 (R10): base register plus signed displacement. -/
def effectiveAddress (rs1 : Reg) (imm : Word) (s : State) : Word := readReg rs1 s + imm

/-- `pc + imm`, modulo 2^32 (R10): relative to the instruction's own address. -/
def pcRelative (imm : Word) (s : State) : Word := s.pc + imm

/-- A 5-bit operand, `shamt` or `uimm`, zero-extended (R94). -/
def zext5 (v : BitVec 5) : Word := v.setWidth 32

/-- The target of JALR (R151): bit 0 is cleared if the parameter `jalr_clears_bit0` says so. -/
def jalrTarget (rs1 : Reg) (imm : Word) (s : State) : Word :=
  if s.params.jalrClearsBit0 then effectiveAddress rs1 imm s &&& 0xFFFFFFFE#32
  else effectiveAddress rs1 imm s

/-- The ALU's operations (R39). -/
inductive AluOp where
  | add | sub | sll | slt | sltu | xor | srl | sra | or | and
deriving DecidableEq, Repr

/-- A truth value as a word, 0x0000_0001 or 0x0000_0000 (R137). -/
def boolWord (b : Bool) : Word := if b then 1#32 else 0#32

/-- The amount of a shift: the low five bits (R134). -/
def shiftAmount (b : Word) : Nat := (b.extractLsb' 0 5).toNat

/-- `alu(op, a, b)` (R131 to R138). -/
def alu (op : AluOp) (a b : Word) : Word :=
  match op with
  | .add => a + b
  | .sub => a - b
  | .sll => a <<< shiftAmount b
  | .slt => boolWord (decide (a.toInt < b.toInt))
  | .sltu => boolWord (decide (a.toNat < b.toNat))
  | .xor => a ^^^ b
  | .srl => a >>> shiftAmount b
  | .sra => a.sshiftRight (shiftAmount b)
  | .or => a ||| b
  | .and => a &&& b

end Sys2Proof.Machine
end

