-- ==== Sys2Proof/Machine/Flags.lean ====
section
/-! DEFINITION. The branch comparator (R140). The block has no flags (R45): a comparison answers the
PC sequencer directly, and no instruction writes a flag. -/

namespace Sys2Proof.Machine

/-- The comparator's conditions (R39). -/
inductive Cond where
  | eq | ne | lt | ge | ltu | geu
deriving DecidableEq, Repr

/-- `cmp(cond, a, b)` (R140). -/
def cmpCond (cond : Cond) (a b : Word) : Bool :=
  match cond with
  | .eq => decide (a = b)
  | .ne => decide (a ≠ b)
  | .lt => decide (a.toInt < b.toInt)
  | .ge => decide (a.toInt ≥ b.toInt)
  | .ltu => decide (a.toNat < b.toNat)
  | .geu => decide (a.toNat ≥ b.toNat)

end Sys2Proof.Machine
end

