-- ==== Sys2Proof/Machine/AluImmediate.lean ====
section
/-! DEFINITION. The register-immediate ALU instructions (42_alu_immediate.md). -/

namespace Sys2Proof.Machine

/-- The shape of the nine OP-IMM instructions: `x[rd] <- alu(op, x[rs1], b); next_pc <- pc + 4`, with b
the immediate or the zero-extended shift amount. -/
def aluImmediate (op : AluOp) (rd rs1 : Reg) (b : Word) (s : State) : StepOutcome :=
  .next (retireWith rd (alu op (readReg rs1 s) b) s)

/-- ADDI (R160). -/
def execAddi (rd rs1 : Reg) (imm : Word) (s : State) : StepOutcome :=
  aluImmediate .add rd rs1 imm s

/-- SLTI (R161). -/
def execSlti (rd rs1 : Reg) (imm : Word) (s : State) : StepOutcome :=
  aluImmediate .slt rd rs1 imm s

/-- SLTIU (R162). -/
def execSltiu (rd rs1 : Reg) (imm : Word) (s : State) : StepOutcome :=
  aluImmediate .sltu rd rs1 imm s

/-- XORI (R163). -/
def execXori (rd rs1 : Reg) (imm : Word) (s : State) : StepOutcome :=
  aluImmediate .xor rd rs1 imm s

/-- ORI (R164). -/
def execOri (rd rs1 : Reg) (imm : Word) (s : State) : StepOutcome :=
  aluImmediate .or rd rs1 imm s

/-- ANDI (R165). -/
def execAndi (rd rs1 : Reg) (imm : Word) (s : State) : StepOutcome :=
  aluImmediate .and rd rs1 imm s

/-- SLLI (R166). -/
def execSlli (rd rs1 : Reg) (shamt : BitVec 5) (s : State) : StepOutcome :=
  aluImmediate .sll rd rs1 (zext5 shamt) s

/-- SRLI (R167). -/
def execSrli (rd rs1 : Reg) (shamt : BitVec 5) (s : State) : StepOutcome :=
  aluImmediate .srl rd rs1 (zext5 shamt) s

/-- SRAI (R168). -/
def execSrai (rd rs1 : Reg) (shamt : BitVec 5) (s : State) : StepOutcome :=
  aluImmediate .sra rd rs1 (zext5 shamt) s

end Sys2Proof.Machine
end

