-- ==== Sys2Proof/Machine/AluRegister.lean ====
section
/-! DEFINITION. The register-register ALU instructions (43_alu_register.md). -/

namespace Sys2Proof.Machine

/-- The shape of the ten OP instructions: `x[rd] <- alu(op, x[rs1], x[rs2]); next_pc <- pc + 4`. -/
def aluRegister (op : AluOp) (rd rs1 rs2 : Reg) (s : State) : StepOutcome :=
  .next (retireWith rd (alu op (readReg rs1 s) (readReg rs2 s)) s)

/-- ADD (R180). -/
def execAdd (rd rs1 rs2 : Reg) (s : State) : StepOutcome := aluRegister .add rd rs1 rs2 s

/-- SUB (R181). -/
def execSub (rd rs1 rs2 : Reg) (s : State) : StepOutcome := aluRegister .sub rd rs1 rs2 s

/-- SLL (R182). -/
def execSll (rd rs1 rs2 : Reg) (s : State) : StepOutcome := aluRegister .sll rd rs1 rs2 s

/-- SLT (R183). -/
def execSlt (rd rs1 rs2 : Reg) (s : State) : StepOutcome := aluRegister .slt rd rs1 rs2 s

/-- SLTU (R184). -/
def execSltu (rd rs1 rs2 : Reg) (s : State) : StepOutcome := aluRegister .sltu rd rs1 rs2 s

/-- XOR (R185). -/
def execXor (rd rs1 rs2 : Reg) (s : State) : StepOutcome := aluRegister .xor rd rs1 rs2 s

/-- SRL (R186). -/
def execSrl (rd rs1 rs2 : Reg) (s : State) : StepOutcome := aluRegister .srl rd rs1 rs2 s

/-- SRA (R187). -/
def execSra (rd rs1 rs2 : Reg) (s : State) : StepOutcome := aluRegister .sra rd rs1 rs2 s

/-- OR (R188). -/
def execOr (rd rs1 rs2 : Reg) (s : State) : StepOutcome := aluRegister .or rd rs1 rs2 s

/-- AND (R189). -/
def execAnd (rd rs1 rs2 : Reg) (s : State) : StepOutcome := aluRegister .and rd rs1 rs2 s

end Sys2Proof.Machine
end

