-- ==== Sys2Proof/Machine/Branches.lean ====
section
/-! DEFINITION. The conditional branches (46_branches.md). -/

namespace Sys2Proof.Machine

/-- The shape of the six branches: `if cmp(cond, x[rs1], x[rs2]) then next_pc <- pc + immB else
next_pc <- pc + 4`. -/
def branch (cond : Cond) (rs1 rs2 : Reg) (imm : Word) (s : State) : StepOutcome :=
  .next (retire (if cmpCond cond (readReg rs1 s) (readReg rs2 s) then pcRelative imm s else nextPc s) s)

/-- BEQ (R220). -/
def execBeq (rs1 rs2 : Reg) (imm : Word) (s : State) : StepOutcome := branch .eq rs1 rs2 imm s

/-- BNE (R221). -/
def execBne (rs1 rs2 : Reg) (imm : Word) (s : State) : StepOutcome := branch .ne rs1 rs2 imm s

/-- BLT (R222). -/
def execBlt (rs1 rs2 : Reg) (imm : Word) (s : State) : StepOutcome := branch .lt rs1 rs2 imm s

/-- BGE (R223). -/
def execBge (rs1 rs2 : Reg) (imm : Word) (s : State) : StepOutcome := branch .ge rs1 rs2 imm s

/-- BLTU (R224). -/
def execBltu (rs1 rs2 : Reg) (imm : Word) (s : State) : StepOutcome := branch .ltu rs1 rs2 imm s

/-- BGEU (R225). -/
def execBgeu (rs1 rs2 : Reg) (imm : Word) (s : State) : StepOutcome := branch .geu rs1 rs2 imm s

end Sys2Proof.Machine
end

