-- ==== Sys2Proof/Machine/Fence.lean ====
section
/-! DEFINITION. FENCE (48_fence.md). -/

namespace Sys2Proof.Machine

/-- FENCE (R235): a no-op that reads none of its fields and writes no register. -/
def execFence (s : State) : StepOutcome := .next (retire (nextPc s) s)

end Sys2Proof.Machine
end

