-- ==== Sys2Proof/Machine/Jumps.lean ====
section
/-! DEFINITION. The jumps (41_jumps.md). -/

namespace Sys2Proof.Machine

/-- JAL (R150): the link is the address behind the jump. -/
def execJal (rd : Reg) (imm : Word) (s : State) : StepOutcome :=
  .next (retire (pcRelative imm s) (writeReg rd (nextPc s) s))

/-- JALR (R151): the target uses x[rs1] from before rd is written. -/
def execJalr (rd rs1 : Reg) (imm : Word) (s : State) : StepOutcome :=
  .next (retire (jalrTarget rs1 imm s) (writeReg rd (nextPc s) s))

end Sys2Proof.Machine
end

