-- ==== Sys2Proof/Machine/Loads.lean ====
section
/-! DEFINITION. The loads (44_loads.md). -/

namespace Sys2Proof.Machine

/-- LB (R200): load byte, sign-extended. -/
def execLb (rd rs1 : Reg) (imm : Word) (s : State) : StepOutcome :=
  let a := effectiveAddress rs1 imm s
  finishLoad rd a ((s.mem.readByte a).map (fun v => v.signExtend 32)) s

/-- LH (R201): load halfword, sign-extended. -/
def execLh (rd rs1 : Reg) (imm : Word) (s : State) : StepOutcome :=
  let a := effectiveAddress rs1 imm s
  finishLoad rd a ((s.mem.readHalf a).map (fun v => v.signExtend 32)) s

/-- LW (R202): load word. -/
def execLw (rd rs1 : Reg) (imm : Word) (s : State) : StepOutcome :=
  let a := effectiveAddress rs1 imm s
  finishLoad rd a (s.mem.readWord a) s

/-- LBU (R203): load byte, zero-extended. -/
def execLbu (rd rs1 : Reg) (imm : Word) (s : State) : StepOutcome :=
  let a := effectiveAddress rs1 imm s
  finishLoad rd a ((s.mem.readByte a).map (fun v => v.setWidth 32)) s

/-- LHU (R204): load halfword, zero-extended. -/
def execLhu (rd rs1 : Reg) (imm : Word) (s : State) : StepOutcome :=
  let a := effectiveAddress rs1 imm s
  finishLoad rd a ((s.mem.readHalf a).map (fun v => v.setWidth 32)) s

end Sys2Proof.Machine
end

