-- ==== Sys2Proof/Machine/Stores.lean ====
section
/-! DEFINITION. The stores (45_stores.md). -/

namespace Sys2Proof.Machine

/-- SB (R210): store byte. -/
def execSb (rs2 rs1 : Reg) (imm : Word) (s : State) : StepOutcome :=
  let a := effectiveAddress rs1 imm s
  finishStore a (s.mem.writeByte a (readReg rs2 s)) s

/-- SH (R211): store halfword. -/
def execSh (rs2 rs1 : Reg) (imm : Word) (s : State) : StepOutcome :=
  let a := effectiveAddress rs1 imm s
  finishStore a (s.mem.writeHalf a (readReg rs2 s)) s

/-- SW (R212): store word. -/
def execSw (rs2 rs1 : Reg) (imm : Word) (s : State) : StepOutcome :=
  let a := effectiveAddress rs1 imm s
  finishStore a (s.mem.writeWord a (readReg rs2 s)) s

end Sys2Proof.Machine
end

