-- ==== Sys2Proof/Machine/System.lean ====
section
/-! DEFINITION. The system instructions (49_system.md): the six CSR instructions, ECALL, EBREAK and MRET. -/

namespace Sys2Proof.Machine

/-- CSRRW (R240). -/
def execCsrrw (rd : Reg) (csr : CsrIndex) (rs1 : Reg) (s : State) : StepOutcome :=
  .next (retireCsr rd (readThenReplace csr (readReg rs1 s) s.csrs) s)

/-- CSRRS (R241). -/
def execCsrrs (rd : Reg) (csr : CsrIndex) (rs1 : Reg) (s : State) : StepOutcome :=
  .next (retireCsr rd (readThenSet csr (readReg rs1 s) s.csrs) s)

/-- CSRRC (R242). -/
def execCsrrc (rd : Reg) (csr : CsrIndex) (rs1 : Reg) (s : State) : StepOutcome :=
  .next (retireCsr rd (readThenClear csr (readReg rs1 s) s.csrs) s)

/-- CSRRWI (R243). -/
def execCsrrwi (rd : Reg) (csr : CsrIndex) (uimm : BitVec 5) (s : State) : StepOutcome :=
  .next (retireCsr rd (readThenReplace csr (zext5 uimm) s.csrs) s)

/-- CSRRSI (R244). -/
def execCsrrsi (rd : Reg) (csr : CsrIndex) (uimm : BitVec 5) (s : State) : StepOutcome :=
  .next (retireCsr rd (readThenSet csr (zext5 uimm) s.csrs) s)

/-- CSRRCI (R245). -/
def execCsrrci (rd : Reg) (csr : CsrIndex) (uimm : BitVec 5) (s : State) : StepOutcome :=
  .next (retireCsr rd (readThenClear csr (zext5 uimm) s.csrs) s)

/-- The exit syscall number of the reference handler (R250). -/
def exitSyscall : Word := 93#32

/-- The register file an ecall handler is given: x0 reads 0 (R248, R250). -/
def handlerView (s : State) : RegFile := (maskX0 s).regs

/-- The reference handler (R250): a7 = x17 equal to the exit number gives Exit(a0 = x10); any other
request is unhandled. -/
def referenceHandler (x : RegFile) : EcallOutcome :=
  if x[17] = exitSyscall then .exit x[10] else .unhandled

/-- The answer of the run's ecall handler (R9, R250). -/
def handlerAnswer (h : EcallHandler) (x : RegFile) : EcallOutcome :=
  match h with
  | .reference => referenceHandler x
  | .other => Config.otherHandler x

/-- The next state of an ECALL by the handler's outcome (R248, R249). -/
def ecallNext (o : EcallOutcome) (s : State) : State :=
  match o with
  | .exit code => halt code s
  | .goOn => retire (nextPc s) s
  | .unhandled => raise .unhandledEnvironmentCall s

/-- ECALL (R248). -/
def execEcall (s : State) : StepOutcome :=
  .next (ecallNext (handlerAnswer s.params.ecallHandler (handlerView s)) s)

/-- The word of EBREAK (R253). -/
def ebreakWord : Word := 0x00100073#32

/-- EBREAK (R253): raises IllegalInstruction with its own address and word. -/
def execEbreak (s : State) : StepOutcome := .next (raise (.illegalInstruction s.pc ebreakWord) s)

/-- MRET (R252). -/
def execMret (s : State) : StepOutcome := .next (trapReturn s)

end Sys2Proof.Machine
end

