-- ==== Sys2Proof/Machine/UpperImmediate.lean ====
section
/-! DEFINITION. The upper-immediate instructions (47_upper_immediate.md). -/

namespace Sys2Proof.Machine

/-- LUI (R230). -/
def execLui (rd : Reg) (imm : Word) (s : State) : StepOutcome := .next (retireWith rd imm s)

/-- AUIPC (R231): the PC is the AUIPC's own address. -/
def execAuipc (rd : Reg) (imm : Word) (s : State) : StepOutcome :=
  .next (retireWith rd (pcRelative imm s) s)

end Sys2Proof.Machine
end

