-- ==== Sys2Proof/Machine/Fetch.lean ====
section
/-! DEFINITION. The front of a step (R42, steps 1 to 3): fetching an instruction's bytes and decoding
them, and what `step` answers when the run has ended. Also the placing of one instruction word from
outside, for `State.withFetchWord`. -/

namespace Sys2Proof.Machine

/-- `Fetch(a)` (R64), as the bytes of the instruction: the first byte is read, it gives the length,
and then the whole span must be mapped. `none` is the failure `UnmappedAddress(a, fetch)`. -/
def fetchBytes (a : Word) (m : Memory) : Option (List Byte) :=
  match m.readByte a with
  | none => none
  | some b0 =>
    if m.covered a (instrLength b0) then
      some ((List.range (instrLength b0)).map (fun i => m.cell (a.toNat + i)))
    else none

/-- What the front of a step delivers: a decoded instruction, or the fault it raises. -/
inductive Fetched where
  | instr (i : Instr)
  | raises (reason : FaultReason)
deriving DecidableEq, Repr

/-- The fault of rejected bytes fetched at a (R92, R107). A fetch never delivers truncated bytes; for
those the span is what is missing (R64). -/
def rejectFault (a : Word) (r : Reject) : FaultReason :=
  match r with
  | .truncated => .unmappedAddress a .fetch
  | .parcel16 p => .illegalInstruction a (Reject.parcel16 p).word
  | .illegalWord w => .illegalInstruction a (Reject.illegalWord w).word

/-- Fetch and decode at address a (R42, R267): the fetch fault first, then the illegal parcel or word. -/
def fetchDecode (a : Word) (m : Memory) : Fetched :=
  match fetchBytes a m with
  | none => .raises (.unmappedAddress a .fetch)
  | some bytes =>
    match decode bytes with
    | .instr i _ => .instr i
    | .rejected r => .raises (rejectFault a r)

/-- The answer of a step in a terminal state: none is taken (R43). -/
def stepEnded (s : State) : Option Fault :=
  match s.status with
  | .running => none
  | .halted code => some (.runHalted code)
  | .faulted reason => some (.runFaulted reason)

/-- The address a placed instruction word goes to: the PC, or, where no four bytes fit below the end
of the address space, the reset PC (log 9). -/
def placePc (s : State) : Word := if s.pc.toNat + 4 ≤ 2 ^ 32 then s.pc else Config.resetPc

/-- The state with one instruction word placed from outside where the next step fetches it, and the
run running (log 2, 9). -/
def placeWord (w : Word) (s : State) : State :=
  { s with
    pc := placePc s
    status := .running
    mem := s.mem.place (placePc s).toNat (bytesOfWord w) }

end Sys2Proof.Machine
end

