-- ==== Sys2Proof/Machine/Step.lean ====
section
/-! DEFINITION. One step of the block (R42), and a state with an instruction word placed where the
step fetches it. -/

namespace Sys2Proof.Machine

/-- One step (R42): none in a terminal state (R43); else fetch, decode, and perform the instruction. -/
def step (s : State) : Host.Outcome State Fault Refusal :=
  match stepEnded s with
  | some f => .fault f
  | none =>
    match fetchDecode s.pc s.mem with
    | .raises reason => .next (raise reason s)
    | .instr i => exec i s

/-- s with the instruction word w, of nbits bits, placed where the next step fetches (log 2, 9). -/
def State.withFetchWord (s : State) (nbits w : Nat) : State := placeWord (tableWord nbits w) s

end Sys2Proof.Machine
end

