-- ==== Sys2Proof/Safety.lean ====
section
/-! DEFINITION. What claims are stated in: the invariant of the state, which register, CSR and memory
span an instruction may change, and what it means that an instruction changed just those. -/

namespace Sys2Proof.Machine

/-- The invariant of the state: x0 holds 0 (R21, R23); the CSR store is in canonical form over the
4096 indices (R27); the memory is in canonical form over disjoint mapped regions (R60). -/
abbrev State.Inv (s : State) : Prop :=
  s.regs[0] = 0#32 ∧ Sparse.wf 0#32 s.csrs = true ∧
    s.csrs.all (fun c => decide (c.1 < 4096)) = true ∧ s.mem.wf = true

/-- The register an instruction names as its destination (R94, R110). -/
def destOf (i : Instr) : Option Reg :=
  match i with
  | .lui rd _ | .auipc rd _ | .jal rd _ | .jalr rd _ _ => some rd
  | .beq _ _ _ | .bne _ _ _ | .blt _ _ _ | .bge _ _ _ | .bltu _ _ _ | .bgeu _ _ _ => none
  | .lb rd _ _ | .lh rd _ _ | .lw rd _ _ | .lbu rd _ _ | .lhu rd _ _ => some rd
  | .sb _ _ _ | .sh _ _ _ | .sw _ _ _ => none
  | .addi rd _ _ | .slti rd _ _ | .sltiu rd _ _ | .xori rd _ _ | .ori rd _ _ | .andi rd _ _ => some rd
  | .slli rd _ _ | .srli rd _ _ | .srai rd _ _ => some rd
  | .add rd _ _ | .sub rd _ _ | .sll rd _ _ | .slt rd _ _ | .sltu rd _ _ => some rd
  | .xor rd _ _ | .srl rd _ _ | .sra rd _ _ | .or rd _ _ | .and rd _ _ => some rd
  | .fence _ _ _ _ _ | .ecall | .ebreak | .mret => none
  | .csrrw rd _ _ | .csrrs rd _ _ | .csrrc rd _ _ => some rd
  | .csrrwi rd _ _ | .csrrsi rd _ _ | .csrrci rd _ _ => some rd

/-- The CSR an instruction operates on: that of the six CSR instructions (R37). -/
def csrTargetOf (i : Instr) : Option CsrIndex :=
  match i with
  | .csrrw _ csr _ | .csrrs _ csr _ | .csrrc _ csr _ => some csr
  | .csrrwi _ csr _ | .csrrsi _ csr _ | .csrrci _ csr _ => some csr
  | .lui _ _ | .auipc _ _ | .jal _ _ | .jalr _ _ _ => none
  | .beq _ _ _ | .bne _ _ _ | .blt _ _ _ | .bge _ _ _ | .bltu _ _ _ | .bgeu _ _ _ => none
  | .lb _ _ _ | .lh _ _ _ | .lw _ _ _ | .lbu _ _ _ | .lhu _ _ _ => none
  | .sb _ _ _ | .sh _ _ _ | .sw _ _ _ => none
  | .addi _ _ _ | .slti _ _ _ | .sltiu _ _ _ | .xori _ _ _ | .ori _ _ _ | .andi _ _ _ => none
  | .slli _ _ _ | .srli _ _ _ | .srai _ _ _ => none
  | .add _ _ _ | .sub _ _ _ | .sll _ _ _ | .slt _ _ _ | .sltu _ _ _ => none
  | .xor _ _ _ | .srl _ _ _ | .sra _ _ _ | .or _ _ _ | .and _ _ _ => none
  | .fence _ _ _ _ _ | .ecall | .ebreak | .mret => none

/-- The span a store writes: its effective address and its width in bytes (R67). -/
def storeSpan (i : Instr) (s : State) : Option (Word × Nat) :=
  match i with
  | .sb _ rs1 imm => some (effectiveAddress rs1 imm s, 1)
  | .sh _ rs1 imm => some (effectiveAddress rs1 imm s, 2)
  | .sw _ rs1 imm => some (effectiveAddress rs1 imm s, 4)
  | .lui _ _ | .auipc _ _ | .jal _ _ | .jalr _ _ _ => none
  | .beq _ _ _ | .bne _ _ _ | .blt _ _ _ | .bge _ _ _ | .bltu _ _ _ | .bgeu _ _ _ => none
  | .lb _ _ _ | .lh _ _ _ | .lw _ _ _ | .lbu _ _ _ | .lhu _ _ _ => none
  | .addi _ _ _ | .slti _ _ _ | .sltiu _ _ _ | .xori _ _ _ | .ori _ _ _ | .andi _ _ _ => none
  | .slli _ _ _ | .srli _ _ _ | .srai _ _ _ => none
  | .add _ _ _ | .sub _ _ _ | .sll _ _ _ | .slt _ _ _ | .sltu _ _ _ => none
  | .xor _ _ _ | .srl _ _ _ | .sra _ _ _ | .or _ _ _ | .and _ _ _ => none
  | .fence _ _ _ _ _ | .ecall | .ebreak | .mret => none
  | .csrrw _ _ _ | .csrrs _ _ _ | .csrrc _ _ _ => none
  | .csrrwi _ _ _ | .csrrsi _ _ _ | .csrrci _ _ _ => none

/-- The span a load reads: its effective address and its width in bytes (R67). -/
def loadSpan (i : Instr) (s : State) : Option (Word × Nat) :=
  match i with
  | .lb _ rs1 imm | .lbu _ rs1 imm => some (effectiveAddress rs1 imm s, 1)
  | .lh _ rs1 imm | .lhu _ rs1 imm => some (effectiveAddress rs1 imm s, 2)
  | .lw _ rs1 imm => some (effectiveAddress rs1 imm s, 4)
  | .lui _ _ | .auipc _ _ | .jal _ _ | .jalr _ _ _ | .beq _ _ _ | .bne _ _ _ | .blt _ _ _ => none
  | .bge _ _ _ | .bltu _ _ _ | .bgeu _ _ _ | .sb _ _ _ | .sh _ _ _ | .sw _ _ _ | .addi _ _ _ => none
  | .slti _ _ _ | .sltiu _ _ _ | .xori _ _ _ | .ori _ _ _ | .andi _ _ _ | .slli _ _ _ | .srli _ _ _ => none
  | .srai _ _ _ | .add _ _ _ | .sub _ _ _ | .sll _ _ _ | .slt _ _ _ | .sltu _ _ _ | .xor _ _ _ => none
  | .srl _ _ _ | .sra _ _ _ | .or _ _ _ | .and _ _ _ | .fence _ _ _ _ _ | .ecall | .ebreak => none
  | .mret | .csrrw _ _ _ | .csrrs _ _ _ | .csrrc _ _ _ | .csrrwi _ _ _ | .csrrsi _ _ _ | .csrrci _ _ _ => none

/-- The PC the sequencer chooses when the instruction completes (R33). -/
def targetOf (i : Instr) (s : State) : Word :=
  match i with
  | .jal _ imm => s.pc + imm
  | .jalr _ rs1 imm =>
    if s.params.jalrClearsBit0 then (readReg rs1 s + imm) &&& 0xFFFFFFFE#32 else readReg rs1 s + imm
  | .beq rs1 rs2 imm => if readReg rs1 s = readReg rs2 s then s.pc + imm else s.pc + 4#32
  | .bne rs1 rs2 imm => if readReg rs1 s ≠ readReg rs2 s then s.pc + imm else s.pc + 4#32
  | .blt rs1 rs2 imm =>
    if (readReg rs1 s).toInt < (readReg rs2 s).toInt then s.pc + imm else s.pc + 4#32
  | .bge rs1 rs2 imm =>
    if (readReg rs1 s).toInt ≥ (readReg rs2 s).toInt then s.pc + imm else s.pc + 4#32
  | .bltu rs1 rs2 imm =>
    if (readReg rs1 s).toNat < (readReg rs2 s).toNat then s.pc + imm else s.pc + 4#32
  | .bgeu rs1 rs2 imm =>
    if (readReg rs1 s).toNat ≥ (readReg rs2 s).toNat then s.pc + imm else s.pc + 4#32
  | .mret => csrRead 0x341#12 s.csrs
  | .lui _ _ | .auipc _ _ | .lb _ _ _ | .lh _ _ _ | .lw _ _ _ | .lbu _ _ _ | .lhu _ _ _ => s.pc + 4#32
  | .sb _ _ _ | .sh _ _ _ | .sw _ _ _ | .addi _ _ _ | .slti _ _ _ | .sltiu _ _ _ | .xori _ _ _ => s.pc + 4#32
  | .ori _ _ _ | .andi _ _ _ | .slli _ _ _ | .srli _ _ _ | .srai _ _ _ | .add _ _ _ | .sub _ _ _ => s.pc + 4#32
  | .sll _ _ _ | .slt _ _ _ | .sltu _ _ _ | .xor _ _ _ | .srl _ _ _ | .sra _ _ _ | .or _ _ _ => s.pc + 4#32
  | .and _ _ _ | .fence _ _ _ _ _ | .ecall | .ebreak | .csrrw _ _ _ | .csrrs _ _ _ | .csrrc _ _ _ => s.pc + 4#32
  | .csrrwi _ _ _ | .csrrsi _ _ _ | .csrrci _ _ _ => s.pc + 4#32

/-- Address b is one of the n bytes from address a on, with no wrap (R61). -/
def inSpan (a : Word) (n : Nat) (b : Word) : Prop := a.toNat ≤ b.toNat ∧ b.toNat < a.toNat + n

/-- From s to t the instruction put v in rd, moved to target, and changed nothing else: every other
register, the CSR store, the run status, every byte of memory and the parameters are as before. A
write to x0 leaves x0 reading 0 (R21). -/
def WroteReg (rd : Reg) (v target : Word) (s t : State) : Prop :=
  (∀ r, readReg r t = if r = rd ∧ rd ≠ 0#5 then v else readReg r s) ∧
    t.pc = target ∧ t.csrs = s.csrs ∧ t.status = s.status ∧ t.mem = s.mem ∧ t.params = s.params

/-- From s to t the instruction moved to target and changed nothing else. -/
def Moved (target : Word) (s t : State) : Prop :=
  (∀ r, readReg r t = readReg r s) ∧
    t.pc = target ∧ t.csrs = s.csrs ∧ t.status = s.status ∧ t.mem = s.mem ∧ t.params = s.params

/-- From s to t the instruction put v in rd and x in CSR c, went on behind itself, and changed
nothing else. -/
def WroteCsr (rd : Reg) (v : Word) (c : CsrIndex) (x : Word) (s t : State) : Prop :=
  (∀ r, readReg r t = if r = rd ∧ rd ≠ 0#5 then v else readReg r s) ∧
    (∀ j, csrRead j t.csrs = if j = c then x else csrRead j s.csrs) ∧
    t.pc = s.pc + 4#32 ∧ t.status = s.status ∧ t.mem = s.mem ∧ t.params = s.params

/-- From s to t the instruction stored the low n bytes of v at address a, little-endian, went on
behind itself, and changed nothing else: every byte outside the span reads as before, and the
mapped regions are the same. -/
def Stored (a v : Word) (n : Nat) (s t : State) : Prop :=
  (∀ i : Nat, i < n → t.mem.readByte (a + BitVec.ofNat 32 i) = some (v.extractLsb' (8 * i) 8)) ∧
    (∀ b, ¬ inSpan a n b → t.mem.readByte b = s.mem.readByte b) ∧
    t.mem.regions = s.mem.regions ∧
    (∀ r, readReg r t = readReg r s) ∧
    t.pc = s.pc + 4#32 ∧ t.csrs = s.csrs ∧ t.status = s.status ∧ t.params = s.params

/-! ## The opcode table as data -/

/-- A row of spec/opcode_table.json: the words w with `w & mask = pattern` are its instruction's. -/
structure OpcodeRow where
  mnemonic : String
  pattern : Word
  mask : Word
deriving DecidableEq, Repr

/-- The word is one of the row's. -/
def OpcodeRow.matchesWord (row : OpcodeRow) (w : Word) : Bool := decide (w &&& row.mask = row.pattern)

/-- The rows of the upper immediates and jumps. -/
def opcodeRowsUpper : List OpcodeRow :=
  [⟨"LUI", 0x00000037#32, 0x0000007F#32⟩,
    ⟨"AUIPC", 0x00000017#32, 0x0000007F#32⟩,
    ⟨"JAL", 0x0000006F#32, 0x0000007F#32⟩,
    ⟨"JALR", 0x00000067#32, 0x0000707F#32⟩]

/-- The rows of the branches. -/
def opcodeRowsBranch : List OpcodeRow :=
  [⟨"BEQ", 0x00000063#32, 0x0000707F#32⟩,
    ⟨"BNE", 0x00001063#32, 0x0000707F#32⟩,
    ⟨"BLT", 0x00004063#32, 0x0000707F#32⟩,
    ⟨"BGE", 0x00005063#32, 0x0000707F#32⟩,
    ⟨"BLTU", 0x00006063#32, 0x0000707F#32⟩,
    ⟨"BGEU", 0x00007063#32, 0x0000707F#32⟩]

/-- The rows of the loads and stores. -/
def opcodeRowsMemory : List OpcodeRow :=
  [⟨"LB", 0x00000003#32, 0x0000707F#32⟩,
    ⟨"LH", 0x00001003#32, 0x0000707F#32⟩,
    ⟨"LW", 0x00002003#32, 0x0000707F#32⟩,
    ⟨"LBU", 0x00004003#32, 0x0000707F#32⟩,
    ⟨"LHU", 0x00005003#32, 0x0000707F#32⟩,
    ⟨"SB", 0x00000023#32, 0x0000707F#32⟩,
    ⟨"SH", 0x00001023#32, 0x0000707F#32⟩,
    ⟨"SW", 0x00002023#32, 0x0000707F#32⟩]

/-- The rows of OP-IMM. -/
def opcodeRowsOpImm : List OpcodeRow :=
  [⟨"ADDI", 0x00000013#32, 0x0000707F#32⟩,
    ⟨"SLTI", 0x00002013#32, 0x0000707F#32⟩,
    ⟨"SLTIU", 0x00003013#32, 0x0000707F#32⟩,
    ⟨"XORI", 0x00004013#32, 0x0000707F#32⟩,
    ⟨"ORI", 0x00006013#32, 0x0000707F#32⟩,
    ⟨"ANDI", 0x00007013#32, 0x0000707F#32⟩,
    ⟨"SLLI", 0x00001013#32, 0xFE00707F#32⟩,
    ⟨"SRLI", 0x00005013#32, 0xFE00707F#32⟩,
    ⟨"SRAI", 0x40005013#32, 0xFE00707F#32⟩]

/-- The rows of OP. -/
def opcodeRowsOp : List OpcodeRow :=
  [⟨"ADD", 0x00000033#32, 0xFE00707F#32⟩,
    ⟨"SUB", 0x40000033#32, 0xFE00707F#32⟩,
    ⟨"SLL", 0x00001033#32, 0xFE00707F#32⟩,
    ⟨"SLT", 0x00002033#32, 0xFE00707F#32⟩,
    ⟨"SLTU", 0x00003033#32, 0xFE00707F#32⟩,
    ⟨"XOR", 0x00004033#32, 0xFE00707F#32⟩,
    ⟨"SRL", 0x00005033#32, 0xFE00707F#32⟩,
    ⟨"SRA", 0x40005033#32, 0xFE00707F#32⟩,
    ⟨"OR", 0x00006033#32, 0xFE00707F#32⟩,
    ⟨"AND", 0x00007033#32, 0xFE00707F#32⟩]

/-- The rows of FENCE and SYSTEM. -/
def opcodeRowsSystem : List OpcodeRow :=
  [⟨"FENCE", 0x0000000F#32, 0x0000707F#32⟩,
    ⟨"ECALL", 0x00000073#32, 0xFFFFFFFF#32⟩,
    ⟨"EBREAK", 0x00100073#32, 0xFFFFFFFF#32⟩,
    ⟨"MRET", 0x30200073#32, 0xFFFFFFFF#32⟩,
    ⟨"CSRRW", 0x00001073#32, 0x0000707F#32⟩,
    ⟨"CSRRS", 0x00002073#32, 0x0000707F#32⟩,
    ⟨"CSRRC", 0x00003073#32, 0x0000707F#32⟩,
    ⟨"CSRRWI", 0x00005073#32, 0x0000707F#32⟩,
    ⟨"CSRRSI", 0x00006073#32, 0x0000707F#32⟩,
    ⟨"CSRRCI", 0x00007073#32, 0x0000707F#32⟩]

/-- The whole opcode table, 47 rows. -/
def opcodeRows : List OpcodeRow :=
  opcodeRowsUpper ++ opcodeRowsBranch ++ opcodeRowsMemory ++ opcodeRowsOpImm ++
    opcodeRowsOp ++ opcodeRowsSystem

/-- The mnemonic of an instruction, as the opcode table spells it. -/
def mnemonicOf (i : Instr) : String :=
  match i with
  | .lui _ _ => "LUI"
  | .auipc _ _ => "AUIPC"
  | .jal _ _ => "JAL"
  | .jalr _ _ _ => "JALR"
  | .beq _ _ _ => "BEQ"
  | .bne _ _ _ => "BNE"
  | .blt _ _ _ => "BLT"
  | .bge _ _ _ => "BGE"
  | .bltu _ _ _ => "BLTU"
  | .bgeu _ _ _ => "BGEU"
  | .lb _ _ _ => "LB"
  | .lh _ _ _ => "LH"
  | .lw _ _ _ => "LW"
  | .lbu _ _ _ => "LBU"
  | .lhu _ _ _ => "LHU"
  | .sb _ _ _ => "SB"
  | .sh _ _ _ => "SH"
  | .sw _ _ _ => "SW"
  | .addi _ _ _ => "ADDI"
  | .slti _ _ _ => "SLTI"
  | .sltiu _ _ _ => "SLTIU"
  | .xori _ _ _ => "XORI"
  | .ori _ _ _ => "ORI"
  | .andi _ _ _ => "ANDI"
  | .slli _ _ _ => "SLLI"
  | .srli _ _ _ => "SRLI"
  | .srai _ _ _ => "SRAI"
  | .add _ _ _ => "ADD"
  | .sub _ _ _ => "SUB"
  | .sll _ _ _ => "SLL"
  | .slt _ _ _ => "SLT"
  | .sltu _ _ _ => "SLTU"
  | .xor _ _ _ => "XOR"
  | .srl _ _ _ => "SRL"
  | .sra _ _ _ => "SRA"
  | .or _ _ _ => "OR"
  | .and _ _ _ => "AND"
  | .fence _ _ _ _ _ => "FENCE"
  | .ecall => "ECALL"
  | .ebreak => "EBREAK"
  | .mret => "MRET"
  | .csrrw _ _ _ => "CSRRW"
  | .csrrs _ _ _ => "CSRRS"
  | .csrrc _ _ _ => "CSRRC"
  | .csrrwi _ _ _ => "CSRRWI"
  | .csrrsi _ _ _ => "CSRRSI"
  | .csrrci _ _ _ => "CSRRCI"

end Sys2Proof.Machine
end

