-- ==== Sys2Proof/Certificates/Slice0/Obligations.lean ====
section
/-! DEFINITION. The statements for the provers, each a rule of spec/ or a property derived from them. -/

open Sys2Proof Sys2Proof.Machine

/-! ## Encoding and decoding -/

/-- R104 at the level of whole instructions: decoding what the encoder wrote gives the instruction
back, for every well-formed instruction and so for every operand its encoding admits. -/
def Obligations.DecodeOfEncode : Prop :=
  ∀ i : Instr, wellFormed i = true → decodeWord (encode i) = some i

/-- The other direction: a word that decodes is the encoding of what it decodes to, which is well
formed. So no two words decode to one instruction, and no bit of a word is dropped. -/
def Obligations.EncodeOfDecode : Prop :=
  ∀ (w : Word) (i : Instr), decodeWord w = some i → wellFormed i = true ∧ encode i = w

/-- The byte decoder reads an encoded instruction off the front of any bytes and leaves the rest. -/
def Obligations.DecodeOfEncodedBytes : Prop :=
  ∀ (i : Instr) (rest : List Byte), wellFormed i = true →
    decode (encodeBytes i ++ rest) = .instr i rest

/-- R105 and opcode_table.json state the same decode: a word decodes to the instruction of the one
table row whose mask and pattern it meets, and to nothing if it meets none. -/
def Obligations.DecodeMatchesOpcodeTable : Prop :=
  (∀ w : Word, (decodeWord w).map mnemonicOf =
    (opcodeRows.find? (fun row => row.matchesWord w)).map OpcodeRow.mnemonic) ∧
  (∀ w : Word, (opcodeRows.filter (fun row => row.matchesWord w)).length ≤ 1)

/-- R104: for every v in the range of its format, putting v's bits where R93 puts them and decoding
gives v back. -/
def Obligations.ImmediatesRoundTrip : Prop :=
  ∀ (v : Word) (rd rs1 rs2 : Reg) (f3 : BitVec 3) (op : BitVec 7),
    (-2048 ≤ v.toInt ∧ v.toInt ≤ 2047 → immI (iFormat (field12 v) rs1 f3 rd op) = v) ∧
    (-2048 ≤ v.toInt ∧ v.toInt ≤ 2047 → immS (sFormat v rs2 rs1 f3 op) = v) ∧
    (-4096 ≤ v.toInt ∧ v.toInt ≤ 4094 ∧ v.toInt % 2 = 0 → immB (bFormat v rs2 rs1 f3 op) = v) ∧
    (v.toNat % 4096 = 0 → immU (uFormat v rd op) = v) ∧
    (-1048576 ≤ v.toInt ∧ v.toInt ≤ 1048574 ∧ v.toInt % 2 = 0 → immJ (jFormat v rd op) = v)

/-- R99 to R103: each immediate is the decoder R97 applied to its slice list, equals its closed form,
and lies in its range; the B- and J-immediates are even, the U-immediate is a multiple of 4096. -/
def Obligations.ImmediatesClosedForms : Prop :=
  ∀ w : Word,
    (immI w = immDecode w [(11, 0)] 31 0#32 (some 11) ∧
      immI w = (w.extractLsb' 20 12).signExtend 32 ∧
      -2048 ≤ (immI w).toInt ∧ (immI w).toInt ≤ 2047) ∧
    (immS w = immDecode w [(4, 0)] 11 (immDecode w [(11, 5)] 31 0#32 (some 11)) (some 11) ∧
      immS w = BitVec.signExtend 32 (w.extractLsb' 25 7 ++ w.extractLsb' 7 5) ∧
      -2048 ≤ (immS w).toInt ∧ (immS w).toInt ≤ 2047) ∧
    (immB w = immDecode w [(4, 1), (11, 11)] 11
        (immDecode w [(12, 12), (10, 5)] 31 0#32 (some 12)) (some 12) ∧
      immB w = BitVec.signExtend 32 (w.extractLsb' 31 1 ++ w.extractLsb' 7 1 ++
        w.extractLsb' 25 6 ++ w.extractLsb' 8 4 ++ 0#1) ∧
      (immB w).getLsbD 0 = false ∧ -4096 ≤ (immB w).toInt ∧ (immB w).toInt ≤ 4094) ∧
    (immU w = immDecode w [(31, 12)] 31 0#32 none ∧
      immU w = (w.extractLsb' 12 20).setWidth 32 <<< 12 ∧ (immU w).toNat % 4096 = 0) ∧
    (immJ w = immDecode w [(20, 20), (10, 1), (11, 11), (19, 12)] 31 0#32 (some 20) ∧
      immJ w = BitVec.signExtend 32 (w.extractLsb' 31 1 ++ w.extractLsb' 12 8 ++
        w.extractLsb' 20 1 ++ w.extractLsb' 21 10 ++ 0#1) ∧
      (immJ w).getLsbD 0 = false ∧ -1048576 ≤ (immJ w).toInt ∧ (immJ w).toInt ≤ 1048574)

/-- R107 (and R92): in a running state a mapped 16-bit parcel at the PC raises IllegalInstruction with
the parcel zero-extended, a mapped 32-bit word that decodes to nothing raises it with the word, and
the words R107 names decode to nothing. -/
def Obligations.IllegalEncodingsRaise : Prop :=
  (∀ (s : State) (p : Half), s.status = .running → s.mem.readHalf s.pc = some p →
    p.extractLsb' 0 2 ≠ 0b11#2 →
    step s = .next { s with status := .faulted (.illegalInstruction s.pc (p.setWidth 32)) }) ∧
  (∀ (s : State) (w : Word), s.status = .running → s.mem.readWord s.pc = some w →
    w.extractLsb' 0 2 = 0b11#2 → decodeWord w = none →
    step s = .next { s with status := .faulted (.illegalInstruction s.pc w) }) ∧
  (∀ w : Word,
    (opcodeOf w ∉ [0x37#7, 0x17#7, 0x6F#7, 0x67#7, 0x63#7, 0x03#7, 0x23#7, 0x13#7, 0x33#7, 0x0F#7,
      0x73#7] → decodeWord w = none) ∧
    (opcodeOf w = 0x03#7 → funct3Of w ∈ [0b011#3, 0b110#3, 0b111#3] → decodeWord w = none) ∧
    (opcodeOf w = 0x23#7 → funct3Of w ∈ [0b011#3, 0b100#3, 0b101#3, 0b110#3, 0b111#3] →
      decodeWord w = none) ∧
    (opcodeOf w = 0x63#7 → funct3Of w ∈ [0b010#3, 0b011#3] → decodeWord w = none) ∧
    (opcodeOf w = 0x67#7 ∨ opcodeOf w = 0x0F#7 → funct3Of w ≠ 0b000#3 → decodeWord w = none) ∧
    (opcodeOf w = 0x13#7 → funct3Of w = 0b001#3 → funct7Of w ≠ 0b0000000#7 →
      decodeWord w = none) ∧
    (opcodeOf w = 0x13#7 → funct3Of w = 0b101#3 → funct7Of w ≠ 0b0000000#7 →
      funct7Of w ≠ 0b0100000#7 → decodeWord w = none) ∧
    (opcodeOf w = 0x33#7 → funct7Of w ≠ 0b0000000#7 →
      ¬ (funct7Of w = 0b0100000#7 ∧ funct3Of w ∈ [0b000#3, 0b101#3]) → decodeWord w = none) ∧
    (opcodeOf w = 0x73#7 → funct3Of w = 0b100#3 → decodeWord w = none) ∧
    (opcodeOf w = 0x73#7 → funct3Of w = 0b000#3 →
      w ∉ [0x00000073#32, 0x00100073#32, 0x30200073#32] → decodeWord w = none)) ∧
  instrLength 0x00#8 = 2 ∧ decodeWord 0x00000000#32 = none ∧
  instrLength 0xFF#8 = 4 ∧ decodeWord 0xFFFFFFFF#32 = none

/-- R108: the standard instructions outside the block decode to nothing: FENCE.I, WFI, SRET, URET,
SFENCE.VMA, every M word, every A, F, D and RV64 opcode. -/
def Obligations.OutOfScopeWordsAreIllegal : Prop :=
  ∀ w : Word,
    (opcodeOf w = 0x0F#7 → funct3Of w = 0b001#3 → decodeWord w = none) ∧
    (w ∈ [0x10500073#32, 0x10200073#32, 0x00200073#32] → decodeWord w = none) ∧
    (opcodeOf w = 0x73#7 → funct3Of w = 0b000#3 → funct7Of w = 0b0001001#7 →
      decodeWord w = none) ∧
    (opcodeOf w = 0x33#7 → funct7Of w = 0b0000001#7 → decodeWord w = none) ∧
    (opcodeOf w ∈ [0x2F#7, 0x07#7, 0x27#7, 0x43#7, 0x47#7, 0x4B#7, 0x4F#7, 0x53#7, 0x1B#7, 0x3B#7] →
      decodeWord w = none)

/-- Words the spec writes out in its examples decode to the instructions they stand for. -/
def Obligations.ExampleWordsDecode : Prop :=
  decodeWord 0x123452B7#32 = some (.lui 5#5 0x12345000#32) ∧
  decodeWord 0x008000EF#32 = some (.jal 1#5 8#32) ∧
  decodeWord 0xFE209EE3#32 = some (.bne 1#5 2#5 (-4#32)) ∧
  decodeWord 0x00430283#32 = some (.lb 5#5 6#5 4#32) ∧
  decodeWord 0xFE532E23#32 = some (.sw 5#5 6#5 (-4#32)) ∧
  decodeWord 0xFFF08113#32 = some (.addi 2#5 1#5 (-1#32)) ∧
  decodeWord 0x4040D113#32 = some (.srai 2#5 1#5 4#5) ∧
  decodeWord 0x402081B3#32 = some (.sub 3#5 1#5 2#5) ∧
  decodeWord 0x0FF0000F#32 = some (.fence 0x0#4 0xF#4 0xF#4 0#5 0#5) ∧
  decodeWord 0x341FD2F3#32 = some (.csrrwi 5#5 0x341#12 0x1F#5) ∧
  decodeWord 0x30200073#32 = some .mret

/-! ## The ALU and the comparator -/

/-- R131 and R132: addition and subtraction modulo 2^32, with their corners. -/
def Obligations.AluAddSub : Prop :=
  (∀ a b : Word, (alu .add a b).toNat = (a.toNat + b.toNat) % 2 ^ 32 ∧
    alu .sub a b = a + ~~~b + 1#32 ∧
    (alu .sub a b).toNat = (a.toNat + (2 ^ 32 - b.toNat)) % 2 ^ 32) ∧
  alu .add 0x7FFFFFFF#32 1#32 = 0x80000000#32 ∧ alu .add 0xFFFFFFFF#32 1#32 = 0#32 ∧
  alu .sub 0#32 1#32 = 0xFFFFFFFF#32 ∧ alu .sub 0x80000000#32 1#32 = 0x7FFFFFFF#32

/-- R133: AND, OR and XOR bit by bit. -/
def Obligations.AluBitwise : Prop :=
  ∀ (a b : Word) (i : Nat),
    (alu .and a b).getLsbD i = (a.getLsbD i && b.getLsbD i) ∧
    (alu .or a b).getLsbD i = (a.getLsbD i || b.getLsbD i) ∧
    (alu .xor a b).getLsbD i = (a.getLsbD i != b.getLsbD i)

/-- R134 to R136: a shift moves the bits by the low five bits of b; zeros come in, and copies of bit
31 at the top of SRA; with the corners. -/
def Obligations.AluShifts : Prop :=
  (∀ (a b : Word) (i : Nat), i < 32 →
    (alu .sll a b).getLsbD i =
      (if i < b.toNat % 32 then false else a.getLsbD (i - b.toNat % 32)) ∧
    (alu .srl a b).getLsbD i =
      (if i + b.toNat % 32 < 32 then a.getLsbD (i + b.toNat % 32) else false) ∧
    (alu .sra a b).getLsbD i =
      (if i + b.toNat % 32 < 32 then a.getLsbD (i + b.toNat % 32) else a.getLsbD 31)) ∧
  (∀ a : Word, alu .sll a 32#32 = a ∧ alu .sll a 33#32 = alu .sll a 1#32) ∧
  alu .sra 0x80000000#32 31#32 = 0xFFFFFFFF#32 ∧ alu .sra 0x7FFFFFFF#32 31#32 = 0#32

/-- R137 and R138: the signed and the unsigned comparison give 1 or 0, with their corners. -/
def Obligations.AluCompare : Prop :=
  (∀ a b : Word, alu .slt a b = (if a.toInt < b.toInt then 1#32 else 0#32) ∧
    alu .sltu a b = (if a.toNat < b.toNat then 1#32 else 0#32)) ∧
  (∀ a : Word, alu .slt a a = 0#32 ∧ (alu .sltu 0#32 a = 1#32 ↔ a ≠ 0#32) ∧
    (alu .sltu a 1#32 = 1#32 ↔ a = 0#32)) ∧
  alu .slt 0xFFFFFFFF#32 0#32 = 1#32 ∧ alu .slt 0x80000000#32 0x7FFFFFFF#32 = 1#32 ∧
  alu .sltu 0xFFFFFFFF#32 0#32 = 0#32

/-- R140: the comparator's six conditions; GE is the negation of LT and GEU of LTU. -/
def Obligations.BranchComparator : Prop :=
  ∀ a b : Word, (cmpCond .eq a b = true ↔ a = b) ∧ (cmpCond .ne a b = true ↔ a ≠ b) ∧
    (cmpCond .lt a b = true ↔ a.toInt < b.toInt) ∧ (cmpCond .ge a b = true ↔ a.toInt ≥ b.toInt) ∧
    (cmpCond .ltu a b = true ↔ a.toNat < b.toNat) ∧ (cmpCond .geu a b = true ↔ a.toNat ≥ b.toNat) ∧
    cmpCond .ge a b = (!cmpCond .lt a b) ∧ cmpCond .geu a b = (!cmpCond .ltu a b)

/-- R141: the summary of the ALU's corners. -/
def Obligations.AluCorners : Prop :=
  alu .add 0x7FFFFFFF#32 0x00000001#32 = 0x80000000#32 ∧
  alu .add 0xFFFFFFFF#32 0x00000001#32 = 0x00000000#32 ∧
  alu .sub 0x80000000#32 0x00000001#32 = 0x7FFFFFFF#32 ∧
  alu .sub 0x00000000#32 0x80000000#32 = 0x80000000#32 ∧
  alu .sll 0x00000001#32 0x0000001F#32 = 0x80000000#32 ∧
  alu .sll 0x00000001#32 0x00000020#32 = 0x00000001#32 ∧
  alu .srl 0x80000000#32 0x0000001F#32 = 0x00000001#32 ∧
  alu .sra 0x80000000#32 0x0000001F#32 = 0xFFFFFFFF#32 ∧
  alu .sra 0x80000000#32 0xFFFFFFE4#32 = 0xF8000000#32 ∧
  alu .slt 0x80000000#32 0x00000000#32 = 1#32 ∧
  alu .sltu 0x80000000#32 0x00000000#32 = 0#32

/-! ## Registers, CSRs and memory -/

/-- R28 to R31: each operation of the CSR store answers the old value, stores the new one in the cell
named, and leaves every other cell. -/
def Obligations.CsrStoreOperations : Prop :=
  ∀ (idx j : CsrIndex) (v : Word) (store : CsrStore),
    csrRead idx [] = 0#32 ∧
    (readThenReplace idx v store).1 = csrRead idx store ∧
    csrRead j (readThenReplace idx v store).2 = (if j = idx then v else csrRead j store) ∧
    (readThenSet idx v store).1 = csrRead idx store ∧
    csrRead j (readThenSet idx v store).2 =
      (if j = idx then csrRead idx store ||| v else csrRead j store) ∧
    (readThenClear idx v store).1 = csrRead idx store ∧
    csrRead j (readThenClear idx v store).2 =
      (if j = idx then csrRead idx store &&& ~~~v else csrRead j store)

/-- R21 (and R22): x0 always reads 0; a register reads as its reset value 0 until it is written; a
write stores its value in the register named, x0 included, and a later read of any other register
gives what it gave before. -/
def Obligations.RegisterReadWrite : Prop :=
  (∀ (r : Reg) (image : List ImageRegion) (resetPc : Word) (params : Params),
    readReg r (State.start image resetPc params) = 0#32) ∧
  ∀ (r q : Reg) (v : Word) (s : State),
    readReg 0#5 s = 0#32 ∧
    (writeReg r v s).regs[r.toNat]'(r.isLt) = v ∧
    (r ≠ 0#5 → readReg r (writeReg r v s) = v) ∧
    (q ≠ r → readReg q (writeReg r v s) = readReg q s)

/-- R23: at the end of every step that does not fault, register 0 holds 0; and the mask changes what
no other register reads as. -/
def Obligations.X0MaskedAtEndOfStep : Prop :=
  (∀ s t : State, step s = .next t → (∀ reason, t.status ≠ .faulted reason) →
    t.regs[0] = 0#32) ∧
  (∀ (r : Reg) (s : State), readReg r (maskX0 s) = readReg r s)

/-- R62: a read succeeds exactly when one region covers its span, which does not pass the end of the
address space, and its value has the byte at the lowest address as its least significant. -/
def Obligations.ReadsAreLittleEndian : Prop :=
  ∀ (m : Memory) (a : Word),
    ((m.readByte a).isSome ↔ a.toNat + 1 ≤ 2 ^ 32 ∧
      ∃ r ∈ m.regions, r.base ≤ a.toNat ∧ a.toNat + 1 ≤ r.base + r.size) ∧
    ((m.readHalf a).isSome ↔ a.toNat + 2 ≤ 2 ^ 32 ∧
      ∃ r ∈ m.regions, r.base ≤ a.toNat ∧ a.toNat + 2 ≤ r.base + r.size) ∧
    ((m.readWord a).isSome ↔ a.toNat + 4 ≤ 2 ^ 32 ∧
      ∃ r ∈ m.regions, r.base ≤ a.toNat ∧ a.toNat + 4 ≤ r.base + r.size) ∧
    (∀ v, m.readHalf a = some v → ∀ k : Nat, k < 2 →
      m.readByte (a + BitVec.ofNat 32 k) = some (v.extractLsb' (8 * k) 8)) ∧
    (∀ v, m.readWord a = some v → ∀ k : Nat, k < 4 →
      m.readByte (a + BitVec.ofNat 32 k) = some (v.extractLsb' (8 * k) 8))

/-- R63: a write on a span that one region covers sets the bytes of the span to those of the value,
least significant first, and no other byte; on any other span it fails and writes nothing. -/
def Obligations.WritesSetTheirBytes : Prop :=
  ∀ (m : Memory) (a v : Word) (n : Nat) (write : Memory → Word → Word → Option Memory),
    (n, write) ∈ [(1, Memory.writeByte), (2, Memory.writeHalf), (4, Memory.writeWord)] →
    (m.covered a n = true → ∃ m', write m a v = some m' ∧ m'.regions = m.regions ∧
      (∀ k : Nat, k < n →
        m'.readByte (a + BitVec.ofNat 32 k) = some (v.extractLsb' (8 * k) 8)) ∧
      (∀ b, ¬ inSpan a n b → m'.readByte b = m.readByte b)) ∧
    (m.covered a n = false → write m a v = none)

/-- R65: what a store wrote is read back with the same bytes at every width: the word whole, its low
halfword, and byte k at offset k. -/
def Obligations.MixedWidthReadBack : Prop :=
  ∀ (m m' : Memory) (a v : Word), m.writeWord a v = some m' →
    m'.readWord a = some v ∧ m'.readHalf a = some (v.extractLsb' 0 16) ∧
    ∀ k : Nat, k < 4 → m'.readByte (a + BitVec.ofNat 32 k) = some (v.extractLsb' (8 * k) 8)

/-- R75: a store over the very next instruction is seen by its fetch: after an SW to the address
behind itself of the word of an instruction, the next step performs that instruction. -/
def Obligations.StoreIsFetchedNext : Prop :=
  ∀ (s t : State) (rs2 rs1 : Reg) (imm : Word) (i : Instr), s.status = .running →
    wellFormed i = true → readReg rs2 s = encode i → readReg rs1 s + imm = s.pc + 4#32 →
    s.mem.readWord (s.pc + 4#32) ≠ none → exec (.sw rs2 rs1 imm) s = .next t →
    step t = exec i t

/-! ## Results and frames, family by family -/

/-- R106, R160 to R168: the OP-IMM words and results. `WroteReg` also says that nothing else changes. -/
def Obligations.OpImmResults : Prop :=
  (∀ w : Word, opcodeOf w = 0b0010011#7 →
    (funct3Of w = 0b000#3 → decodeWord w = some (.addi (rdOf w) (rs1Of w) (immI w))) ∧
    (funct3Of w = 0b010#3 → decodeWord w = some (.slti (rdOf w) (rs1Of w) (immI w))) ∧
    (funct3Of w = 0b011#3 → decodeWord w = some (.sltiu (rdOf w) (rs1Of w) (immI w))) ∧
    (funct3Of w = 0b100#3 → decodeWord w = some (.xori (rdOf w) (rs1Of w) (immI w))) ∧
    (funct3Of w = 0b110#3 → decodeWord w = some (.ori (rdOf w) (rs1Of w) (immI w))) ∧
    (funct3Of w = 0b111#3 → decodeWord w = some (.andi (rdOf w) (rs1Of w) (immI w))) ∧
    (funct3Of w = 0b001#3 → funct7Of w = 0b0000000#7 →
      decodeWord w = some (.slli (rdOf w) (rs1Of w) (shamtOf w))) ∧
    (funct3Of w = 0b101#3 → funct7Of w = 0b0000000#7 →
      decodeWord w = some (.srli (rdOf w) (rs1Of w) (shamtOf w))) ∧
    (funct3Of w = 0b101#3 → funct7Of w = 0b0100000#7 →
      decodeWord w = some (.srai (rdOf w) (rs1Of w) (shamtOf w))) ∧
    (funct3Of w = 0b001#3 → funct7Of w ≠ 0b0000000#7 → decodeWord w = none) ∧
    (funct3Of w = 0b101#3 → funct7Of w ≠ 0b0000000#7 → funct7Of w ≠ 0b0100000#7 →
      decodeWord w = none)) ∧
  (∀ (rd rs1 : Reg) (imm : Word) (s : State),
    (∃ t, exec (.addi rd rs1 imm) s = .next t ∧
      WroteReg rd (readReg rs1 s + imm) (s.pc + 4#32) s t) ∧
    (∃ t, exec (.slti rd rs1 imm) s = .next t ∧
      WroteReg rd (if (readReg rs1 s).toInt < imm.toInt then 1#32 else 0#32) (s.pc + 4#32) s t) ∧
    (∃ t, exec (.sltiu rd rs1 imm) s = .next t ∧
      WroteReg rd (if (readReg rs1 s).toNat < imm.toNat then 1#32 else 0#32) (s.pc + 4#32) s t) ∧
    (∃ t, exec (.xori rd rs1 imm) s = .next t ∧
      WroteReg rd (readReg rs1 s ^^^ imm) (s.pc + 4#32) s t) ∧
    (∃ t, exec (.ori rd rs1 imm) s = .next t ∧
      WroteReg rd (readReg rs1 s ||| imm) (s.pc + 4#32) s t) ∧
    (∃ t, exec (.andi rd rs1 imm) s = .next t ∧
      WroteReg rd (readReg rs1 s &&& imm) (s.pc + 4#32) s t)) ∧
  (∀ (rd rs1 : Reg) (shamt : BitVec 5) (s : State),
    (∃ t, exec (.slli rd rs1 shamt) s = .next t ∧
      WroteReg rd (readReg rs1 s <<< shamt.toNat) (s.pc + 4#32) s t) ∧
    (∃ t, exec (.srli rd rs1 shamt) s = .next t ∧
      WroteReg rd (readReg rs1 s >>> shamt.toNat) (s.pc + 4#32) s t) ∧
    (∃ t, exec (.srai rd rs1 shamt) s = .next t ∧
      WroteReg rd ((readReg rs1 s).sshiftRight shamt.toNat) (s.pc + 4#32) s t))

/-- R180 to R189: the OP words and results. -/
def Obligations.OpResults : Prop :=
  (∀ w : Word, opcodeOf w = 0b0110011#7 →
    (funct7Of w = 0b0000000#7 →
      (funct3Of w = 0b000#3 → decodeWord w = some (.add (rdOf w) (rs1Of w) (rs2Of w))) ∧
      (funct3Of w = 0b001#3 → decodeWord w = some (.sll (rdOf w) (rs1Of w) (rs2Of w))) ∧
      (funct3Of w = 0b010#3 → decodeWord w = some (.slt (rdOf w) (rs1Of w) (rs2Of w))) ∧
      (funct3Of w = 0b011#3 → decodeWord w = some (.sltu (rdOf w) (rs1Of w) (rs2Of w))) ∧
      (funct3Of w = 0b100#3 → decodeWord w = some (.xor (rdOf w) (rs1Of w) (rs2Of w))) ∧
      (funct3Of w = 0b101#3 → decodeWord w = some (.srl (rdOf w) (rs1Of w) (rs2Of w))) ∧
      (funct3Of w = 0b110#3 → decodeWord w = some (.or (rdOf w) (rs1Of w) (rs2Of w))) ∧
      (funct3Of w = 0b111#3 → decodeWord w = some (.and (rdOf w) (rs1Of w) (rs2Of w)))) ∧
    (funct7Of w = 0b0100000#7 →
      (funct3Of w = 0b000#3 → decodeWord w = some (.sub (rdOf w) (rs1Of w) (rs2Of w))) ∧
      (funct3Of w = 0b101#3 → decodeWord w = some (.sra (rdOf w) (rs1Of w) (rs2Of w))))) ∧
  (∀ (rd rs1 rs2 : Reg) (s : State),
    (∃ t, exec (.add rd rs1 rs2) s = .next t ∧
      WroteReg rd (readReg rs1 s + readReg rs2 s) (s.pc + 4#32) s t) ∧
    (∃ t, exec (.sub rd rs1 rs2) s = .next t ∧
      WroteReg rd (readReg rs1 s - readReg rs2 s) (s.pc + 4#32) s t) ∧
    (∃ t, exec (.sll rd rs1 rs2) s = .next t ∧
      WroteReg rd (readReg rs1 s <<< ((readReg rs2 s).toNat % 32)) (s.pc + 4#32) s t) ∧
    (∃ t, exec (.slt rd rs1 rs2) s = .next t ∧
      WroteReg rd (if (readReg rs1 s).toInt < (readReg rs2 s).toInt then 1#32 else 0#32)
        (s.pc + 4#32) s t) ∧
    (∃ t, exec (.sltu rd rs1 rs2) s = .next t ∧
      WroteReg rd (if (readReg rs1 s).toNat < (readReg rs2 s).toNat then 1#32 else 0#32)
        (s.pc + 4#32) s t) ∧
    (∃ t, exec (.xor rd rs1 rs2) s = .next t ∧
      WroteReg rd (readReg rs1 s ^^^ readReg rs2 s) (s.pc + 4#32) s t) ∧
    (∃ t, exec (.srl rd rs1 rs2) s = .next t ∧
      WroteReg rd (readReg rs1 s >>> ((readReg rs2 s).toNat % 32)) (s.pc + 4#32) s t) ∧
    (∃ t, exec (.sra rd rs1 rs2) s = .next t ∧
      WroteReg rd ((readReg rs1 s).sshiftRight ((readReg rs2 s).toNat % 32)) (s.pc + 4#32) s t) ∧
    (∃ t, exec (.or rd rs1 rs2) s = .next t ∧
      WroteReg rd (readReg rs1 s ||| readReg rs2 s) (s.pc + 4#32) s t) ∧
    (∃ t, exec (.and rd rs1 rs2) s = .next t ∧
      WroteReg rd (readReg rs1 s &&& readReg rs2 s) (s.pc + 4#32) s t))

/-- R230 and R231: the upper immediates. -/
def Obligations.UpperImmediateResults : Prop :=
  (∀ w : Word, (opcodeOf w = 0b0110111#7 → decodeWord w = some (.lui (rdOf w) (immU w))) ∧
    (opcodeOf w = 0b0010111#7 → decodeWord w = some (.auipc (rdOf w) (immU w)))) ∧
  (∀ (rd : Reg) (imm : Word) (s : State),
    (∃ t, exec (.lui rd imm) s = .next t ∧ WroteReg rd imm (s.pc + 4#32) s t) ∧
    (∃ t, exec (.auipc rd imm) s = .next t ∧ WroteReg rd (s.pc + imm) (s.pc + 4#32) s t))

/-- R150: JAL links and jumps relative to its own address. -/
def Obligations.JalResult : Prop :=
  (∀ w : Word, opcodeOf w = 0b1101111#7 → decodeWord w = some (.jal (rdOf w) (immJ w))) ∧
  (∀ (rd : Reg) (imm : Word) (s : State), ∃ t, exec (.jal rd imm) s = .next t ∧
    WroteReg rd (s.pc + 4#32) (s.pc + imm) s t)

/-- R151: JALR uses x[rs1] from before the link is written, for either value of `jalr_clears_bit0`;
the two values differ only when the sum is odd. -/
def Obligations.JalrResult : Prop :=
  (∀ w : Word, opcodeOf w = 0b1100111#7 →
    (funct3Of w = 0b000#3 → decodeWord w = some (.jalr (rdOf w) (rs1Of w) (immI w))) ∧
    (funct3Of w ≠ 0b000#3 → decodeWord w = none)) ∧
  (∀ (rd rs1 : Reg) (imm : Word) (s : State),
    (s.params.jalrClearsBit0 = false → ∃ t, exec (.jalr rd rs1 imm) s = .next t ∧
      WroteReg rd (s.pc + 4#32) (readReg rs1 s + imm) s t) ∧
    (s.params.jalrClearsBit0 = true → ∃ t, exec (.jalr rd rs1 imm) s = .next t ∧
      WroteReg rd (s.pc + 4#32) ((readReg rs1 s + imm) &&& 0xFFFFFFFE#32) s t) ∧
    ((readReg rs1 s + imm) &&& 0xFFFFFFFE#32 ≠ readReg rs1 s + imm ↔
      (readReg rs1 s + imm).getLsbD 0 = true))

/-- R220 to R225: the branch words, the condition of each branch, and that a branch changes only the
PC. -/
def Obligations.BranchResults : Prop :=
  (∀ w : Word, opcodeOf w = 0b1100011#7 →
    (funct3Of w = 0b000#3 → decodeWord w = some (.beq (rs1Of w) (rs2Of w) (immB w))) ∧
    (funct3Of w = 0b001#3 → decodeWord w = some (.bne (rs1Of w) (rs2Of w) (immB w))) ∧
    (funct3Of w = 0b100#3 → decodeWord w = some (.blt (rs1Of w) (rs2Of w) (immB w))) ∧
    (funct3Of w = 0b101#3 → decodeWord w = some (.bge (rs1Of w) (rs2Of w) (immB w))) ∧
    (funct3Of w = 0b110#3 → decodeWord w = some (.bltu (rs1Of w) (rs2Of w) (immB w))) ∧
    (funct3Of w = 0b111#3 → decodeWord w = some (.bgeu (rs1Of w) (rs2Of w) (immB w)))) ∧
  (∀ (rs1 rs2 : Reg) (imm : Word) (s : State),
    (∃ t, exec (.beq rs1 rs2 imm) s = .next t ∧
      Moved (if readReg rs1 s = readReg rs2 s then s.pc + imm else s.pc + 4#32) s t) ∧
    (∃ t, exec (.bne rs1 rs2 imm) s = .next t ∧
      Moved (if readReg rs1 s = readReg rs2 s then s.pc + 4#32 else s.pc + imm) s t) ∧
    (∃ t, exec (.blt rs1 rs2 imm) s = .next t ∧
      Moved (if (readReg rs1 s).toInt < (readReg rs2 s).toInt then s.pc + imm
        else s.pc + 4#32) s t) ∧
    (∃ t, exec (.bge rs1 rs2 imm) s = .next t ∧
      Moved (if (readReg rs1 s).toInt < (readReg rs2 s).toInt then s.pc + 4#32
        else s.pc + imm) s t) ∧
    (∃ t, exec (.bltu rs1 rs2 imm) s = .next t ∧
      Moved (if (readReg rs1 s).toNat < (readReg rs2 s).toNat then s.pc + imm
        else s.pc + 4#32) s t) ∧
    (∃ t, exec (.bgeu rs1 rs2 imm) s = .next t ∧
      Moved (if (readReg rs1 s).toNat < (readReg rs2 s).toNat then s.pc + 4#32
        else s.pc + imm) s t))

/-- R200 to R204: the load words; a load whose span is mapped writes rd, sign- or zero-extended, at
any alignment; one whose span is not raises UnmappedAddress and changes nothing else. -/
def Obligations.LoadResults : Prop :=
  (∀ w : Word, opcodeOf w = 0b0000011#7 →
    (funct3Of w = 0b000#3 → decodeWord w = some (.lb (rdOf w) (rs1Of w) (immI w))) ∧
    (funct3Of w = 0b001#3 → decodeWord w = some (.lh (rdOf w) (rs1Of w) (immI w))) ∧
    (funct3Of w = 0b010#3 → decodeWord w = some (.lw (rdOf w) (rs1Of w) (immI w))) ∧
    (funct3Of w = 0b100#3 → decodeWord w = some (.lbu (rdOf w) (rs1Of w) (immI w))) ∧
    (funct3Of w = 0b101#3 → decodeWord w = some (.lhu (rdOf w) (rs1Of w) (immI w)))) ∧
  (∀ (rd rs1 : Reg) (imm : Word) (s : State),
    (∀ b, s.mem.readByte (readReg rs1 s + imm) = some b →
      (∃ t, exec (.lb rd rs1 imm) s = .next t ∧
        WroteReg rd (b.signExtend 32) (s.pc + 4#32) s t) ∧
      (∃ t, exec (.lbu rd rs1 imm) s = .next t ∧
        WroteReg rd (b.setWidth 32) (s.pc + 4#32) s t)) ∧
    (∀ h, s.mem.readHalf (readReg rs1 s + imm) = some h →
      (∃ t, exec (.lh rd rs1 imm) s = .next t ∧
        WroteReg rd (h.signExtend 32) (s.pc + 4#32) s t) ∧
      (∃ t, exec (.lhu rd rs1 imm) s = .next t ∧
        WroteReg rd (h.setWidth 32) (s.pc + 4#32) s t)) ∧
    (∀ v, s.mem.readWord (readReg rs1 s + imm) = some v →
      ∃ t, exec (.lw rd rs1 imm) s = .next t ∧ WroteReg rd v (s.pc + 4#32) s t) ∧
    (s.mem.readByte (readReg rs1 s + imm) = none →
      exec (.lb rd rs1 imm) s = .next
        { s with status := .faulted (.unmappedAddress (readReg rs1 s + imm) .load) } ∧
      exec (.lbu rd rs1 imm) s = .next
        { s with status := .faulted (.unmappedAddress (readReg rs1 s + imm) .load) }) ∧
    (s.mem.readHalf (readReg rs1 s + imm) = none →
      exec (.lh rd rs1 imm) s = .next
        { s with status := .faulted (.unmappedAddress (readReg rs1 s + imm) .load) } ∧
      exec (.lhu rd rs1 imm) s = .next
        { s with status := .faulted (.unmappedAddress (readReg rs1 s + imm) .load) }) ∧
    (s.mem.readWord (readReg rs1 s + imm) = none →
      exec (.lw rd rs1 imm) s = .next
        { s with status := .faulted (.unmappedAddress (readReg rs1 s + imm) .load) }))

/-- R210 to R212: the store words; a store whose span is mapped sets the bytes of the span and changes
nothing else but the PC; one whose span is not raises UnmappedAddress and writes no byte. -/
def Obligations.StoreResults : Prop :=
  (∀ w : Word, opcodeOf w = 0b0100011#7 →
    (funct3Of w = 0b000#3 → decodeWord w = some (.sb (rs2Of w) (rs1Of w) (immS w))) ∧
    (funct3Of w = 0b001#3 → decodeWord w = some (.sh (rs2Of w) (rs1Of w) (immS w))) ∧
    (funct3Of w = 0b010#3 → decodeWord w = some (.sw (rs2Of w) (rs1Of w) (immS w)))) ∧
  (∀ (rs2 rs1 : Reg) (imm : Word) (s : State),
    (s.mem.readByte (readReg rs1 s + imm) ≠ none → ∃ t, exec (.sb rs2 rs1 imm) s = .next t ∧
      Stored (readReg rs1 s + imm) (readReg rs2 s) 1 s t) ∧
    (s.mem.readHalf (readReg rs1 s + imm) ≠ none → ∃ t, exec (.sh rs2 rs1 imm) s = .next t ∧
      Stored (readReg rs1 s + imm) (readReg rs2 s) 2 s t) ∧
    (s.mem.readWord (readReg rs1 s + imm) ≠ none → ∃ t, exec (.sw rs2 rs1 imm) s = .next t ∧
      Stored (readReg rs1 s + imm) (readReg rs2 s) 4 s t) ∧
    (s.mem.readByte (readReg rs1 s + imm) = none → exec (.sb rs2 rs1 imm) s = .next
      { s with status := .faulted (.unmappedAddress (readReg rs1 s + imm) .store) }) ∧
    (s.mem.readHalf (readReg rs1 s + imm) = none → exec (.sh rs2 rs1 imm) s = .next
      { s with status := .faulted (.unmappedAddress (readReg rs1 s + imm) .store) }) ∧
    (s.mem.readWord (readReg rs1 s + imm) = none → exec (.sw rs2 rs1 imm) s = .next
      { s with status := .faulted (.unmappedAddress (readReg rs1 s + imm) .store) }))

/-- R235: every word of opcode 0b0001111 and funct3 000 is FENCE, other funct3 values are illegal, and
FENCE only advances the PC, whatever its fields. -/
def Obligations.FenceIsNoOp : Prop :=
  (∀ w : Word, opcodeOf w = 0b0001111#7 →
    (funct3Of w = 0b000#3 → ∃ fm pred succ rs1 rd,
      decodeWord w = some (.fence fm pred succ rs1 rd)) ∧
    (funct3Of w ≠ 0b000#3 → decodeWord w = none)) ∧
  (∀ (fm pred succ : BitVec 4) (rs1 rd : Reg) (s : State),
    ∃ t, exec (.fence fm pred succ rs1 rd) s = .next t ∧ Moved (s.pc + 4#32) s t)

/-- R240 to R246: the CSR words and results, for every one of the 4096 indices and with no check of
any kind. The CSR's old value and x[rs1] are those from before the instruction. -/
def Obligations.CsrResults : Prop :=
  (∀ w : Word, opcodeOf w = 0b1110011#7 →
    (funct3Of w = 0b001#3 → decodeWord w = some (.csrrw (rdOf w) (csrOf w) (rs1Of w))) ∧
    (funct3Of w = 0b010#3 → decodeWord w = some (.csrrs (rdOf w) (csrOf w) (rs1Of w))) ∧
    (funct3Of w = 0b011#3 → decodeWord w = some (.csrrc (rdOf w) (csrOf w) (rs1Of w))) ∧
    (funct3Of w = 0b101#3 → decodeWord w = some (.csrrwi (rdOf w) (csrOf w) (uimmOf w))) ∧
    (funct3Of w = 0b110#3 → decodeWord w = some (.csrrsi (rdOf w) (csrOf w) (uimmOf w))) ∧
    (funct3Of w = 0b111#3 → decodeWord w = some (.csrrci (rdOf w) (csrOf w) (uimmOf w)))) ∧
  (∀ (rd : Reg) (csr : CsrIndex) (rs1 : Reg) (s : State),
    (∃ t, exec (.csrrw rd csr rs1) s = .next t ∧
      WroteCsr rd (csrRead csr s.csrs) csr (readReg rs1 s) s t) ∧
    (∃ t, exec (.csrrs rd csr rs1) s = .next t ∧
      WroteCsr rd (csrRead csr s.csrs) csr (csrRead csr s.csrs ||| readReg rs1 s) s t) ∧
    (∃ t, exec (.csrrc rd csr rs1) s = .next t ∧
      WroteCsr rd (csrRead csr s.csrs) csr (csrRead csr s.csrs &&& ~~~readReg rs1 s) s t)) ∧
  (∀ (rd : Reg) (csr : CsrIndex) (uimm : BitVec 5) (s : State),
    (∃ t, exec (.csrrwi rd csr uimm) s = .next t ∧
      WroteCsr rd (csrRead csr s.csrs) csr (uimm.setWidth 32) s t) ∧
    (∃ t, exec (.csrrsi rd csr uimm) s = .next t ∧
      WroteCsr rd (csrRead csr s.csrs) csr (csrRead csr s.csrs ||| uimm.setWidth 32) s t) ∧
    (∃ t, exec (.csrrci rd csr uimm) s = .next t ∧
      WroteCsr rd (csrRead csr s.csrs) csr (csrRead csr s.csrs &&& ~~~uimm.setWidth 32) s t))

/-- R247: the reads and writes that standard Zicsr suppresses are unobservable: with rs1 = x0 or
uimm = 0 the set and clear forms leave the whole store as it was, and with rd = x0 the replace forms
leave every register. The premise is the invariant `InvariantKept` keeps. -/
def Obligations.SuppressedCsrAccessUnobservable : Prop :=
  ∀ (rd : Reg) (csr : CsrIndex) (rs1 : Reg) (uimm : BitVec 5) (s : State), s.Inv →
    (∃ t, exec (.csrrs rd csr 0#5) s = .next t ∧ t.csrs = s.csrs) ∧
    (∃ t, exec (.csrrc rd csr 0#5) s = .next t ∧ t.csrs = s.csrs) ∧
    (∃ t, exec (.csrrsi rd csr 0#5) s = .next t ∧ t.csrs = s.csrs) ∧
    (∃ t, exec (.csrrci rd csr 0#5) s = .next t ∧ t.csrs = s.csrs) ∧
    (∃ t, exec (.csrrw 0#5 csr rs1) s = .next t ∧ ∀ r, readReg r t = readReg r s) ∧
    (∃ t, exec (.csrrwi 0#5 csr uimm) s = .next t ∧ ∀ r, readReg r t = readReg r s)

/-- R248 to R251: ECALL's word, and the words beside it; the registers the handler is given; the reference handler; and the
next state by the outcome, for the reference handler and for any other. -/
def Obligations.EcallResult : Prop :=
  (∀ w : Word, decodeWord w = some .ecall ↔ w = 0x00000073#32) ∧
  (∀ w : Word, opcodeOf w = 0b1110011#7 → funct3Of w = 0b000#3 →
    w ∉ [0x00000073#32, 0x00100073#32, 0x30200073#32] → decodeWord w = none) ∧
  (∀ (s : State) (r : Reg), (handlerView s)[r.toNat]'(r.isLt) = readReg r s) ∧
  (∀ s : State, s.params.ecallHandler = .reference →
    (readReg 17#5 s = 93#32 → ∃ t, exec .ecall s = .next t ∧ t.status = .halted (readReg 10#5 s) ∧
      t.pc = s.pc ∧ (∀ r, readReg r t = readReg r s) ∧ t.csrs = s.csrs ∧ t.mem = s.mem ∧
      t.params = s.params) ∧
    (readReg 17#5 s ≠ 93#32 →
      exec .ecall s = .next { s with status := .faulted .unhandledEnvironmentCall })) ∧
  (∀ s : State, s.params.ecallHandler = .other →
    match Config.otherHandler (handlerView s) with
    | .exit code => ∃ t, exec .ecall s = .next t ∧ t.status = .halted code ∧ t.pc = s.pc ∧
        (∀ r, readReg r t = readReg r s) ∧ t.csrs = s.csrs ∧ t.mem = s.mem ∧ t.params = s.params
    | .goOn => ∃ t, exec .ecall s = .next t ∧ Moved (s.pc + 4#32) s t
    | .unhandled => exec .ecall s = .next { s with status := .faulted .unhandledEnvironmentCall })

/-- R252: MRET's word; it sets the PC to CSR[0x341], no bit of it masked, and changes nothing
else. -/
def Obligations.MretResult : Prop :=
  (∀ w : Word, decodeWord w = some .mret ↔ w = 0x30200073#32) ∧
  (∀ s : State, ∃ t, exec .mret s = .next t ∧ Moved (csrRead 0x341#12 s.csrs) s t)

/-- R253: EBREAK's word; it raises IllegalInstruction with its own address and word, and changes
nothing else. -/
def Obligations.EbreakResult : Prop :=
  (∀ w : Word, decodeWord w = some .ebreak ↔ w = 0x00100073#32) ∧
  (∀ s : State, exec .ebreak s =
    .next { s with status := .faulted (.illegalInstruction s.pc 0x00100073#32) })

/-- R109: an instruction with rd = x0 that operates on no CSR changes nothing but the PC, unless it
faults. -/
def Obligations.X0DestinationOnlyMovesPc : Prop :=
  ∀ (i : Instr) (s t : State), destOf i = some 0#5 → csrTargetOf i = none →
    exec i s = .next t → t.status = s.status → Moved t.pc s t

/-! ## The step -/

/-- R64 and R91: the fetch reads the first byte, which gives the length, and then that many bytes
under the span rule: those of the little-endian halfword or word at the address. A first byte with
bits [4:2] = 0b111 has length 4, and its word decodes to nothing. -/
def Obligations.FetchAndLength : Prop :=
  (∀ b : Byte, (b.extractLsb' 0 2 = 0b11#2 → instrLength b = 4) ∧
    (b.extractLsb' 0 2 ≠ 0b11#2 → instrLength b = 2)) ∧
  (∀ w : Word, w.extractLsb' 0 5 = 0b11111#5 → decodeWord w = none) ∧
  (∀ (a : Word) (m : Memory), (m.readByte a = none → fetchBytes a m = none) ∧
    (∀ b, m.readByte a = some b →
      (m.covered a (instrLength b) = false → fetchBytes a m = none) ∧
      (∀ p, instrLength b = 2 → m.readHalf a = some p →
        fetchBytes a m = some [p.extractLsb' 0 8, p.extractLsb' 8 8]) ∧
      (∀ w, instrLength b = 4 → m.readWord a = some w → fetchBytes a m = some (bytesOfWord w)))) ∧
  (∀ s : State, s.status = .running → fetchBytes s.pc s.mem = none →
    step s = .next { s with status := .faulted (.unmappedAddress s.pc .fetch) })

/-- R42: when the bytes at the PC decode to an instruction, a step in a running state is that
instruction performed; nothing is added around it. -/
def Obligations.StepRunsDecoded : Prop :=
  ∀ (s : State) (w : Word) (i : Instr), s.status = .running → s.mem.readWord s.pc = some w →
    decodeWord w = some i → step s = exec i s

/-- R43: no step is taken in Halted or Faulted. That the model's step answers a named stop there is
the model's choice, log 6. -/
def Obligations.NoStepWhenEnded : Prop :=
  ∀ s : State, (∀ code, s.status = .halted code → step s = .fault (.runHalted code)) ∧
    (∀ reason, s.status = .faulted reason → step s = .fault (.runFaulted reason))

/-- R42: a step in a running state always answers a next state: nothing is refused, and no fault of
the block stops the model. -/
def Obligations.RunningStepCompletes : Prop :=
  ∀ s : State, s.status = .running → ∃ t, step s = .next t

/-- R267: the order of the conditions of one step. First the fetch: its first byte, then its whole
span; then the 16-bit parcel; then the word that does not decode; then the instruction's own, which
is that of a load, a store, EBREAK or ECALL. -/
def Obligations.FaultPriority : Prop :=
  (∀ s : State, s.status = .running →
    (s.mem.readByte s.pc = none →
      step s = .next { s with status := .faulted (.unmappedAddress s.pc .fetch) }) ∧
    (∀ b, s.mem.readByte s.pc = some b →
      (instrLength b = 2 →
        (s.mem.readHalf s.pc = none →
          step s = .next { s with status := .faulted (.unmappedAddress s.pc .fetch) }) ∧
        (∀ p, s.mem.readHalf s.pc = some p →
          step s = .next { s with status := .faulted (.illegalInstruction s.pc (p.setWidth 32)) })) ∧
      (instrLength b = 4 →
        (s.mem.readWord s.pc = none →
          step s = .next { s with status := .faulted (.unmappedAddress s.pc .fetch) }) ∧
        (∀ w, s.mem.readWord s.pc = some w →
          (decodeWord w = none →
            step s = .next { s with status := .faulted (.illegalInstruction s.pc w) }) ∧
          (∀ i, decodeWord w = some i → step s = exec i s))))) ∧
  (∀ (i : Instr) (s t : State) (reason : FaultReason), s.status = .running →
    exec i s = .next t → t.status = .faulted reason →
      (∃ a n, loadSpan i s = some (a, n) ∧ reason = .unmappedAddress a .load) ∨
      (∃ a n, storeSpan i s = some (a, n) ∧ reason = .unmappedAddress a .store) ∨
      (i = .ebreak ∧ reason = .illegalInstruction s.pc 0x00100073#32) ∨
      (i = .ecall ∧ reason = .unhandledEnvironmentCall))

/-- R262 and R263: a step that raises changes nothing but the run status. -/
def Obligations.FaultsArePrecise : Prop :=
  ∀ (s t : State) (reason : FaultReason), step s = .next t → t.status = .faulted reason →
    t = { s with status := .faulted reason }

/-- R260: which fault can come from where, with what information. -/
def Obligations.FaultOrigins : Prop :=
  ∀ (s t : State) (reason : FaultReason), step s = .next t → t.status = .faulted reason →
    match reason with
    | .illegalInstruction p w => p = s.pc ∧
        ((∃ h, s.mem.readHalf s.pc = some h ∧ h.extractLsb' 0 2 ≠ 0b11#2 ∧ w = h.setWidth 32) ∨
          (s.mem.readWord s.pc = some w ∧ (decodeWord w = none ∨ decodeWord w = some .ebreak)))
    | .unmappedAddress a .fetch => a = s.pc ∧ fetchBytes s.pc s.mem = none
    | .unmappedAddress a .load => ∃ i n, fetchDecode s.pc s.mem = .instr i ∧
        loadSpan i s = some (a, n) ∧ s.mem.covered a n = false
    | .unmappedAddress a .store => ∃ i n, fetchDecode s.pc s.mem = .instr i ∧
        storeSpan i s = some (a, n) ∧ s.mem.covered a n = false
    | .unhandledEnvironmentCall => fetchDecode s.pc s.mem = .instr .ecall ∧
        handlerAnswer s.params.ecallHandler (handlerView s) = .unhandled

/-- R32, R249: a run is halted only by an ECALL its handler answers with Exit, with that exit code and
the PC at the ECALL. -/
def Obligations.HaltOnlyByEcall : Prop :=
  ∀ (s t : State) (code : Word), step s = .next t → t.status = .halted code →
    fetchDecode s.pc s.mem = .instr .ecall ∧
      handlerAnswer s.params.ecallHandler (handlerView s) = .exit code ∧ t.pc = s.pc

/-- R264: no fault and no ECALL writes any CSR, and none moves the PC anywhere but behind the ECALL:
there is no trap entry. -/
def Obligations.NoTrapEntry : Prop :=
  ∀ s t : State, step s = .next t →
    ((∃ reason, t.status = .faulted reason) → t.csrs = s.csrs ∧ t.pc = s.pc) ∧
    (fetchDecode s.pc s.mem = .instr .ecall →
      t.csrs = s.csrs ∧ (t.pc = s.pc ∨ t.pc = s.pc + 4#32))

/-- R33: the PC sequencer. An instruction that leaves the run running takes the table's next PC; one
that halts or faults leaves the PC. -/
def Obligations.NextPcTable : Prop :=
  ∀ (i : Instr) (s t : State), s.status = .running → exec i s = .next t →
    (t.status = .running → t.pc = targetOf i s) ∧ (t.status ≠ .running → t.pc = s.pc)

/-- R22, R36: a step changes no register but the destination of the instruction it performed. -/
def Obligations.OnlyDestinationChanges : Prop :=
  ∀ (s t : State) (r : Reg), step s = .next t → readReg r t ≠ readReg r s →
    ∃ i, fetchDecode s.pc s.mem = .instr i ∧ destOf i = some r ∧ r ≠ 0#5

/-- R37, R35, R271: a step changes no CSR but the one its CSR instruction names: no counter advances,
and nothing else writes one. -/
def Obligations.OnlyNamedCsrChanges : Prop :=
  ∀ (s t : State) (c : CsrIndex), step s = .next t → csrRead c t.csrs ≠ csrRead c s.csrs →
    ∃ i, fetchDecode s.pc s.mem = .instr i ∧ csrTargetOf i = some c

/-- R67, R72: a step changes no byte of memory but those in the span of the store it performed. -/
def Obligations.OnlyStoredBytesChange : Prop :=
  ∀ (s t : State) (b : Word), step s = .next t → t.mem.readByte b ≠ s.mem.readByte b →
    ∃ i a n, fetchDecode s.pc s.mem = .instr i ∧ storeSpan i s = some (a, n) ∧ inSpan a n b

/-- R60, R293: no step changes the set of mapped regions or a start parameter. That the parameters
stand in the state is the model's choice, log 4. -/
def Obligations.RegionsAndParametersFixed : Prop :=
  ∀ s t : State, step s = .next t → t.mem.regions = s.mem.regions ∧ t.params = s.params

/-- R295: a jump to itself never ends: from a state that meets the invariant any number of steps
gives the same state. -/
def Obligations.SelfJumpNeverEnds : Prop :=
  ∀ (s : State) (k : Nat), s.Inv → s.status = .running →
    s.mem.readWord s.pc = some 0x0000006F#32 → Sys2Proof.core.run k s = .next s

/-! ## The invariant, and the start of a run -/

/-- Every step keeps the invariant: x0 holds 0, the CSR store and the memory are in canonical form, and
every listed byte is mapped. -/
def Obligations.InvariantKept : Prop := ∀ s t : State, s.Inv → step s = .next t → t.Inv

/-- The invariant holds at reset. -/
def Obligations.ResetMeetsInvariant : Prop := State.reset.Inv

/-- The invariant holds at the start of a run from any well-formed image, at any reset PC and under
any parameters. -/
def Obligations.StartMeetsInvariant : Prop :=
  ∀ (image : List ImageRegion) (resetPc : Word) (params : Params), imageWf image = true →
    (State.start image resetPc params).Inv

/-- R290: the state at run start: every register and every CSR 0, the PC at `reset_pc`, the status
Running, and the mapped regions of `image` with their initial bytes. -/
def Obligations.StartState : Prop :=
  ∀ (image : List ImageRegion) (resetPc : Word) (params : Params),
    (∀ r, readReg r (State.start image resetPc params) = 0#32) ∧
    (State.start image resetPc params).pc = resetPc ∧
    (∀ c, csrRead c (State.start image resetPc params).csrs = 0#32) ∧
    (State.start image resetPc params).status = .running ∧
    (State.start image resetPc params).mem.regions =
      image.map (fun r => { base := r.base, size := r.bytes.length }) ∧
    (imageWf image = true → ∀ r ∈ image, ∀ (k : Nat) (hk : k < r.bytes.length),
      (State.start image resetPc params).mem.readByte (BitVec.ofNat 32 (r.base + k)) =
        some r.bytes[k])

/-- R296: if the byte at `reset_pc` is in no region of the image, the first step raises
UnmappedAddress(reset_pc, fetch). -/
def Obligations.UnmappedResetPcFaults : Prop :=
  ∀ (image : List ImageRegion) (resetPc : Word) (params : Params),
    (∀ r ∈ image, ¬ (r.base ≤ resetPc.toNat ∧ resetPc.toNat < r.base + r.bytes.length)) →
    step (State.start image resetPc params) = .next
      { State.start image resetPc params with
        status := .faulted (.unmappedAddress resetPc .fetch) }

/-- Placing an instruction word from outside (log 2, 9) keeps the invariant, and the next step then
performs exactly that instruction. This is the model's own device, no rule of the spec. -/
def Obligations.PlacedWordRunsNext : Prop :=
  (∀ (s : State) (nbits w : Nat), s.Inv → (s.withFetchWord nbits w).Inv) ∧
  (∀ (s : State) (i : Instr), wellFormed i = true →
    step (s.withFetchWord 32 (encode i).toNat) = exec i (s.withFetchWord 32 (encode i).toNat))
end

