-- ==== Sys2Proof/Laws/Decode.lean ====
section
/-! SUPPORT. The bits of extended values, and the fields of an encoded word: each field of R94 read from
each format of R93 gives what the format put there. -/

namespace Sys2Proof

/-- Sign extension copies the top bit: bit i of the result is bit min i (n - 1). -/
theorem getLsbD_signExtend_min {n : Nat} (x : BitVec n) (hn : 0 < n) {i : Nat} (hi : i < 32) :
    (x.signExtend 32).getLsbD i = x.getLsbD (min i (n - 1)) := by
  rw [BitVec.getLsbD_signExtend]
  by_cases h : i < n
  · simp [h, hi, show min i (n - 1) = i by omega]
  · simp [h, hi, show min i (n - 1) = n - 1 by omega, BitVec.msb_eq_getLsbD_last]

/-- The bits of `sext_from(v, b)` (R13). -/
theorem getLsbD_sextFrom (v : Word) (b : Nat) {i : Nat} (hi : i < 32) :
    (sextFrom v b).getLsbD i = v.getLsbD (min i b) := by
  rw [sextFrom, getLsbD_signExtend_min _ (by omega) hi, BitVec.getLsbD_extractLsb']
  simp [show min i b < b + 1 by omega]

theorem immPass_nil (w acc : Word) (p : Nat) : immPass w [] p acc = acc := rfl

/-- One slice of the immediate decoder (R97). -/
theorem immPass_cons (w acc : Word) (hi lo p : Nat) (slices : List (Nat × Nat)) :
    immPass w ((hi, lo) :: slices) p acc =
      immPass w slices (p - (hi - lo + 1))
        (acc ||| ((w.extractLsb' (p + 1 - (hi - lo + 1)) (hi - lo + 1)).setWidth 32 <<< lo)) := rfl

/-! The fields of rFormat. -/

@[simp] theorem opcodeOf_rFormat (f7 : BitVec 7) (rs2 rs1 : Reg) (f3 : BitVec 3) (rd : Reg) (op : BitVec 7) :
    opcodeOf (rFormat f7 rs2 rs1 f3 rd op) = op := by
  refine BitVec.eq_of_getLsbD_eq fun i hi => ?_
  interval_cases i <;> simp [opcodeOf, rFormat, fieldAt]

@[simp] theorem rdOf_rFormat (f7 : BitVec 7) (rs2 rs1 : Reg) (f3 : BitVec 3) (rd : Reg) (op : BitVec 7) :
    rdOf (rFormat f7 rs2 rs1 f3 rd op) = rd := by
  refine BitVec.eq_of_getLsbD_eq fun i hi => ?_
  interval_cases i <;> simp [rdOf, rFormat, fieldAt]

@[simp] theorem funct3Of_rFormat (f7 : BitVec 7) (rs2 rs1 : Reg) (f3 : BitVec 3) (rd : Reg) (op : BitVec 7) :
    funct3Of (rFormat f7 rs2 rs1 f3 rd op) = f3 := by
  refine BitVec.eq_of_getLsbD_eq fun i hi => ?_
  interval_cases i <;> simp [funct3Of, rFormat, fieldAt]

@[simp] theorem rs1Of_rFormat (f7 : BitVec 7) (rs2 rs1 : Reg) (f3 : BitVec 3) (rd : Reg) (op : BitVec 7) :
    rs1Of (rFormat f7 rs2 rs1 f3 rd op) = rs1 := by
  refine BitVec.eq_of_getLsbD_eq fun i hi => ?_
  interval_cases i <;> simp [rs1Of, rFormat, fieldAt]

@[simp] theorem rs2Of_rFormat (f7 : BitVec 7) (rs2 rs1 : Reg) (f3 : BitVec 3) (rd : Reg) (op : BitVec 7) :
    rs2Of (rFormat f7 rs2 rs1 f3 rd op) = rs2 := by
  refine BitVec.eq_of_getLsbD_eq fun i hi => ?_
  interval_cases i <;> simp [rs2Of, rFormat, fieldAt]

@[simp] theorem shamtOf_rFormat (f7 : BitVec 7) (rs2 rs1 : Reg) (f3 : BitVec 3) (rd : Reg) (op : BitVec 7) :
    shamtOf (rFormat f7 rs2 rs1 f3 rd op) = rs2 := by
  refine BitVec.eq_of_getLsbD_eq fun i hi => ?_
  interval_cases i <;> simp [shamtOf, rFormat, fieldAt]

@[simp] theorem funct7Of_rFormat (f7 : BitVec 7) (rs2 rs1 : Reg) (f3 : BitVec 3) (rd : Reg) (op : BitVec 7) :
    funct7Of (rFormat f7 rs2 rs1 f3 rd op) = f7 := by
  refine BitVec.eq_of_getLsbD_eq fun i hi => ?_
  interval_cases i <;> simp [funct7Of, rFormat, fieldAt]

/-! The fields of iFormat. -/

@[simp] theorem opcodeOf_iFormat (field : BitVec 12) (rs1 : Reg) (f3 : BitVec 3) (rd : Reg) (op : BitVec 7) :
    opcodeOf (iFormat field rs1 f3 rd op) = op := by
  refine BitVec.eq_of_getLsbD_eq fun i hi => ?_
  interval_cases i <;> simp [opcodeOf, iFormat, fieldAt]

@[simp] theorem rdOf_iFormat (field : BitVec 12) (rs1 : Reg) (f3 : BitVec 3) (rd : Reg) (op : BitVec 7) :
    rdOf (iFormat field rs1 f3 rd op) = rd := by
  refine BitVec.eq_of_getLsbD_eq fun i hi => ?_
  interval_cases i <;> simp [rdOf, iFormat, fieldAt]

@[simp] theorem funct3Of_iFormat (field : BitVec 12) (rs1 : Reg) (f3 : BitVec 3) (rd : Reg) (op : BitVec 7) :
    funct3Of (iFormat field rs1 f3 rd op) = f3 := by
  refine BitVec.eq_of_getLsbD_eq fun i hi => ?_
  interval_cases i <;> simp [funct3Of, iFormat, fieldAt]

@[simp] theorem rs1Of_iFormat (field : BitVec 12) (rs1 : Reg) (f3 : BitVec 3) (rd : Reg) (op : BitVec 7) :
    rs1Of (iFormat field rs1 f3 rd op) = rs1 := by
  refine BitVec.eq_of_getLsbD_eq fun i hi => ?_
  interval_cases i <;> simp [rs1Of, iFormat, fieldAt]

@[simp] theorem uimmOf_iFormat (field : BitVec 12) (rs1 : Reg) (f3 : BitVec 3) (rd : Reg) (op : BitVec 7) :
    uimmOf (iFormat field rs1 f3 rd op) = rs1 := by
  refine BitVec.eq_of_getLsbD_eq fun i hi => ?_
  interval_cases i <;> simp [uimmOf, iFormat, fieldAt]

@[simp] theorem csrOf_iFormat (field : BitVec 12) (rs1 : Reg) (f3 : BitVec 3) (rd : Reg) (op : BitVec 7) :
    csrOf (iFormat field rs1 f3 rd op) = field := by
  refine BitVec.eq_of_getLsbD_eq fun i hi => ?_
  interval_cases i <;> simp [csrOf, iFormat, fieldAt]

/-! The fields of fenceFormat. -/

@[simp] theorem opcodeOf_fenceFormat (fm pred succ : BitVec 4) (rs1 : Reg) (f3 : BitVec 3) (rd : Reg) (op : BitVec 7) :
    opcodeOf (fenceFormat fm pred succ rs1 f3 rd op) = op := by
  refine BitVec.eq_of_getLsbD_eq fun i hi => ?_
  interval_cases i <;> simp [opcodeOf, fenceFormat, fieldAt]

@[simp] theorem rdOf_fenceFormat (fm pred succ : BitVec 4) (rs1 : Reg) (f3 : BitVec 3) (rd : Reg) (op : BitVec 7) :
    rdOf (fenceFormat fm pred succ rs1 f3 rd op) = rd := by
  refine BitVec.eq_of_getLsbD_eq fun i hi => ?_
  interval_cases i <;> simp [rdOf, fenceFormat, fieldAt]

@[simp] theorem funct3Of_fenceFormat (fm pred succ : BitVec 4) (rs1 : Reg) (f3 : BitVec 3) (rd : Reg) (op : BitVec 7) :
    funct3Of (fenceFormat fm pred succ rs1 f3 rd op) = f3 := by
  refine BitVec.eq_of_getLsbD_eq fun i hi => ?_
  interval_cases i <;> simp [funct3Of, fenceFormat, fieldAt]

@[simp] theorem rs1Of_fenceFormat (fm pred succ : BitVec 4) (rs1 : Reg) (f3 : BitVec 3) (rd : Reg) (op : BitVec 7) :
    rs1Of (fenceFormat fm pred succ rs1 f3 rd op) = rs1 := by
  refine BitVec.eq_of_getLsbD_eq fun i hi => ?_
  interval_cases i <;> simp [rs1Of, fenceFormat, fieldAt]

@[simp] theorem fmOf_fenceFormat (fm pred succ : BitVec 4) (rs1 : Reg) (f3 : BitVec 3) (rd : Reg) (op : BitVec 7) :
    fmOf (fenceFormat fm pred succ rs1 f3 rd op) = fm := by
  refine BitVec.eq_of_getLsbD_eq fun i hi => ?_
  interval_cases i <;> simp [fmOf, fenceFormat, fieldAt]

@[simp] theorem predOf_fenceFormat (fm pred succ : BitVec 4) (rs1 : Reg) (f3 : BitVec 3) (rd : Reg) (op : BitVec 7) :
    predOf (fenceFormat fm pred succ rs1 f3 rd op) = pred := by
  refine BitVec.eq_of_getLsbD_eq fun i hi => ?_
  interval_cases i <;> simp [predOf, fenceFormat, fieldAt]

@[simp] theorem succOf_fenceFormat (fm pred succ : BitVec 4) (rs1 : Reg) (f3 : BitVec 3) (rd : Reg) (op : BitVec 7) :
    succOf (fenceFormat fm pred succ rs1 f3 rd op) = succ := by
  refine BitVec.eq_of_getLsbD_eq fun i hi => ?_
  interval_cases i <;> simp [succOf, fenceFormat, fieldAt]

/-! The fields of sFormat. -/

@[simp] theorem opcodeOf_sFormat (imm : Word) (rs2 rs1 : Reg) (f3 : BitVec 3) (op : BitVec 7) :
    opcodeOf (sFormat imm rs2 rs1 f3 op) = op := by
  refine BitVec.eq_of_getLsbD_eq fun i hi => ?_
  interval_cases i <;> simp [opcodeOf, sFormat, fieldAt]

@[simp] theorem funct3Of_sFormat (imm : Word) (rs2 rs1 : Reg) (f3 : BitVec 3) (op : BitVec 7) :
    funct3Of (sFormat imm rs2 rs1 f3 op) = f3 := by
  refine BitVec.eq_of_getLsbD_eq fun i hi => ?_
  interval_cases i <;> simp [funct3Of, sFormat, fieldAt]

@[simp] theorem rs1Of_sFormat (imm : Word) (rs2 rs1 : Reg) (f3 : BitVec 3) (op : BitVec 7) :
    rs1Of (sFormat imm rs2 rs1 f3 op) = rs1 := by
  refine BitVec.eq_of_getLsbD_eq fun i hi => ?_
  interval_cases i <;> simp [rs1Of, sFormat, fieldAt]

@[simp] theorem rs2Of_sFormat (imm : Word) (rs2 rs1 : Reg) (f3 : BitVec 3) (op : BitVec 7) :
    rs2Of (sFormat imm rs2 rs1 f3 op) = rs2 := by
  refine BitVec.eq_of_getLsbD_eq fun i hi => ?_
  interval_cases i <;> simp [rs2Of, sFormat, fieldAt]

/-! The fields of bFormat. -/

@[simp] theorem opcodeOf_bFormat (imm : Word) (rs2 rs1 : Reg) (f3 : BitVec 3) (op : BitVec 7) :
    opcodeOf (bFormat imm rs2 rs1 f3 op) = op := by
  refine BitVec.eq_of_getLsbD_eq fun i hi => ?_
  interval_cases i <;> simp [opcodeOf, bFormat, fieldAt]

@[simp] theorem funct3Of_bFormat (imm : Word) (rs2 rs1 : Reg) (f3 : BitVec 3) (op : BitVec 7) :
    funct3Of (bFormat imm rs2 rs1 f3 op) = f3 := by
  refine BitVec.eq_of_getLsbD_eq fun i hi => ?_
  interval_cases i <;> simp [funct3Of, bFormat, fieldAt]

@[simp] theorem rs1Of_bFormat (imm : Word) (rs2 rs1 : Reg) (f3 : BitVec 3) (op : BitVec 7) :
    rs1Of (bFormat imm rs2 rs1 f3 op) = rs1 := by
  refine BitVec.eq_of_getLsbD_eq fun i hi => ?_
  interval_cases i <;> simp [rs1Of, bFormat, fieldAt]

@[simp] theorem rs2Of_bFormat (imm : Word) (rs2 rs1 : Reg) (f3 : BitVec 3) (op : BitVec 7) :
    rs2Of (bFormat imm rs2 rs1 f3 op) = rs2 := by
  refine BitVec.eq_of_getLsbD_eq fun i hi => ?_
  interval_cases i <;> simp [rs2Of, bFormat, fieldAt]

/-! The fields of uFormat. -/

@[simp] theorem opcodeOf_uFormat (imm : Word) (rd : Reg) (op : BitVec 7) :
    opcodeOf (uFormat imm rd op) = op := by
  refine BitVec.eq_of_getLsbD_eq fun i hi => ?_
  interval_cases i <;> simp [opcodeOf, uFormat, fieldAt]

@[simp] theorem rdOf_uFormat (imm : Word) (rd : Reg) (op : BitVec 7) :
    rdOf (uFormat imm rd op) = rd := by
  refine BitVec.eq_of_getLsbD_eq fun i hi => ?_
  interval_cases i <;> simp [rdOf, uFormat, fieldAt]

/-! The fields of jFormat. -/

@[simp] theorem opcodeOf_jFormat (imm : Word) (rd : Reg) (op : BitVec 7) :
    opcodeOf (jFormat imm rd op) = op := by
  refine BitVec.eq_of_getLsbD_eq fun i hi => ?_
  interval_cases i <;> simp [opcodeOf, jFormat, fieldAt]

@[simp] theorem rdOf_jFormat (imm : Word) (rd : Reg) (op : BitVec 7) :
    rdOf (jFormat imm rd op) = rd := by
  refine BitVec.eq_of_getLsbD_eq fun i hi => ?_
  interval_cases i <;> simp [rdOf, jFormat, fieldAt]

end Sys2Proof
end

