-- ==== Sys2Proof/Laws/Sparse.lean ====
section
/-! SUPPORT. Sparse stores: what a read gives after a write, with no premise on the list, and that a
write keeps the canonical form. -/

namespace Sys2Proof.Machine

variable {w : Nat} {d v : BitVec w} {cells : List (Nat × BitVec w)} {j k lo : Nat}

theorem Sparse.read_erase_self : Sparse.read d (Sparse.erase cells k) k = d := by
  induction cells with
  | nil => rfl
  | cons c cells ih =>
    obtain ⟨i, x⟩ := c
    by_cases h : i = k <;> simp [Sparse.erase, Sparse.read, h, ih]

theorem Sparse.read_erase_other (h : j ≠ k) :
    Sparse.read d (Sparse.erase cells k) j = Sparse.read d cells j := by
  induction cells with
  | nil => rfl
  | cons c cells ih =>
    obtain ⟨i, x⟩ := c
    by_cases hk : i = k
    · have : i ≠ j := by omega
      simp [Sparse.erase, Sparse.read, hk, ih, Ne.symm h]
    · simp [Sparse.erase, Sparse.read, hk, ih]

/-- Reading k finds an inserted value wherever k was not listed before. -/
theorem Sparse.read_insert_self (h : ∀ c ∈ cells, c.1 ≠ k) :
    Sparse.read d (Sparse.insert cells k v) k = v := by
  induction cells with
  | nil => simp [Sparse.insert, Sparse.read]
  | cons c cells ih =>
    obtain ⟨i, x⟩ := c
    have hi : i ≠ k := h (i, x) List.mem_cons_self
    have ih := ih fun c hc => h c (List.mem_cons_of_mem _ hc)
    by_cases hk : k < i <;> simp [Sparse.insert, Sparse.read, hk, hi, ih]

theorem Sparse.read_insert_other (h : j ≠ k) :
    Sparse.read d (Sparse.insert cells k v) j = Sparse.read d cells j := by
  induction cells with
  | nil => simp [Sparse.insert, Sparse.read, Ne.symm h]
  | cons c cells ih =>
    obtain ⟨i, x⟩ := c
    by_cases hk : k < i <;> simp [Sparse.insert, Sparse.read, hk, ih, Ne.symm h]

/-- An erased list holds only cells of the list, and none at k. -/
theorem Sparse.mem_erase {c : Nat × BitVec w} (h : c ∈ Sparse.erase cells k) :
    c ∈ cells ∧ c.1 ≠ k := by
  induction cells with
  | nil => simp [Sparse.erase] at h
  | cons e cells ih =>
    obtain ⟨i, x⟩ := e
    by_cases hk : i = k
    · simp only [Sparse.erase, hk, ↓reduceIte] at h
      exact ⟨List.mem_cons_of_mem _ (ih h).1, (ih h).2⟩
    · simp only [Sparse.erase, hk, ↓reduceIte, List.mem_cons] at h
      rcases h with rfl | h
      · exact ⟨List.mem_cons_self, hk⟩
      · exact ⟨List.mem_cons_of_mem _ (ih h).1, (ih h).2⟩

theorem Sparse.mem_insert {c : Nat × BitVec w} (h : c ∈ Sparse.insert cells k v) :
    c = (k, v) ∨ c ∈ cells := by
  induction cells with
  | nil => simpa [Sparse.insert] using h
  | cons e cells ih =>
    obtain ⟨i, x⟩ := e
    by_cases hk : k < i
    · simpa [Sparse.insert, hk] using h
    · simp only [Sparse.insert, hk, ↓reduceIte, List.mem_cons] at h
      rcases h with rfl | h
      · simp
      · rcases ih h with rfl | h <;> simp_all

/-- A cell of the list after a write is the one written or was there before. -/
theorem Sparse.mem_write {c : Nat × BitVec w} (h : c ∈ Sparse.write d cells k v) :
    c = (k, v) ∨ c ∈ cells := by
  by_cases hv : v = d
  · rw [Sparse.write, if_pos hv] at h
    exact .inr (Sparse.mem_erase h).1
  · rw [Sparse.write, if_neg hv] at h
    rcases Sparse.mem_insert h with h | h
    · exact .inl h
    · exact .inr (Sparse.mem_erase h).1

/-- The law of a sparse store: a read after a write, for every list. -/
theorem Sparse.read_write :
    Sparse.read d (Sparse.write d cells k v) j = if j = k then v else Sparse.read d cells j := by
  by_cases hv : v = d
  · by_cases hj : j = k
    · simp [Sparse.write, hv, hj, Sparse.read_erase_self]
    · simp [Sparse.write, hv, hj, Sparse.read_erase_other hj]
  · by_cases hj : j = k
    · subst hj
      simp [Sparse.write, hv, Sparse.read_insert_self fun c hc => (Sparse.mem_erase hc).2]
    · simp [Sparse.write, hv, hj, Sparse.read_insert_other hj, Sparse.read_erase_other hj]

/-! ## The canonical form -/

theorem Sparse.wfFrom_cons {x : BitVec w} :
    Sparse.wfFrom d lo ((k, x) :: cells) = true ↔
      lo ≤ k ∧ x ≠ d ∧ Sparse.wfFrom d (k + 1) cells = true := by
  simp [Sparse.wfFrom, and_assoc]

theorem Sparse.wfFrom_mono {lo' : Nat} (h : Sparse.wfFrom d lo cells = true) (hlo : lo' ≤ lo) :
    Sparse.wfFrom d lo' cells = true := by
  cases cells with
  | nil => rfl
  | cons c cells =>
    rw [Sparse.wfFrom_cons] at h ⊢
    exact ⟨le_trans hlo h.1, h.2⟩

theorem Sparse.wfFrom_erase (h : Sparse.wfFrom d lo cells = true) :
    Sparse.wfFrom d lo (Sparse.erase cells k) = true := by
  induction cells generalizing lo with
  | nil => rfl
  | cons c cells ih =>
    obtain ⟨i, x⟩ := c
    rw [Sparse.wfFrom_cons] at h
    by_cases hk : i = k
    · simpa [Sparse.erase, hk] using
        Sparse.wfFrom_mono (ih h.2.2) (by omega : lo ≤ i + 1)
    · simp only [Sparse.erase, hk, ↓reduceIte, Sparse.wfFrom_cons]
      exact ⟨h.1, h.2.1, ih h.2.2⟩

theorem Sparse.wfFrom_insert (h : Sparse.wfFrom d lo cells = true) (hk : ∀ c ∈ cells, c.1 ≠ k)
    (hlo : lo ≤ k) (hv : v ≠ d) : Sparse.wfFrom d lo (Sparse.insert cells k v) = true := by
  induction cells generalizing lo with
  | nil => simp [Sparse.insert, Sparse.wfFrom, hlo, hv]
  | cons c cells ih =>
    obtain ⟨i, x⟩ := c
    have hi : i ≠ k := hk (i, x) List.mem_cons_self
    rw [Sparse.wfFrom_cons] at h
    by_cases hlt : k < i
    · simp only [Sparse.insert, hlt, ↓reduceIte, Sparse.wfFrom_cons]
      exact ⟨hlo, hv, hlt, h.2⟩
    · simp only [Sparse.insert, hlt, ↓reduceIte, Sparse.wfFrom_cons]
      exact ⟨h.1, h.2.1,
        ih h.2.2 (fun c hc => hk c (List.mem_cons_of_mem _ hc)) (by omega)⟩

/-- A write keeps the canonical form. -/
theorem Sparse.wf_write (h : Sparse.wf d cells = true) :
    Sparse.wf d (Sparse.write d cells k v) = true := by
  by_cases hv : v = d
  · simpa [Sparse.write, Sparse.wf, hv] using Sparse.wfFrom_erase h
  · simpa [Sparse.write, Sparse.wf, hv] using
      Sparse.wfFrom_insert (Sparse.wfFrom_erase h) (fun c hc => (Sparse.mem_erase hc).2)
        (Nat.zero_le _) hv

/-- In canonical form a key below the bound is not listed. -/
theorem Sparse.read_below (h : Sparse.wfFrom d lo cells = true) (hk : k < lo) :
    Sparse.read d cells k = d := by
  induction cells generalizing lo with
  | nil => rfl
  | cons c cells ih =>
    obtain ⟨i, x⟩ := c
    rw [Sparse.wfFrom_cons] at h
    have : i ≠ k := by omega
    simp [Sparse.read, this, ih h.2.2 (by omega)]

/-- Two lists in canonical form that read alike everywhere are the same list. -/
theorem Sparse.ext_of_wfFrom {cells' : List (Nat × BitVec w)} {lo' : Nat}
    (h : Sparse.wfFrom d lo cells = true) (h' : Sparse.wfFrom d lo' cells' = true)
    (heq : ∀ k, Sparse.read d cells k = Sparse.read d cells' k) : cells = cells' := by
  induction cells generalizing lo lo' cells' with
  | nil =>
    cases cells' with
    | nil => rfl
    | cons c' cells' =>
      obtain ⟨i', x'⟩ := c'
      rw [Sparse.wfFrom_cons] at h'
      exact absurd (by simpa [Sparse.read] using (heq i').symm) h'.2.1
  | cons c cells ih =>
    obtain ⟨i, x⟩ := c
    rw [Sparse.wfFrom_cons] at h
    cases cells' with
    | nil => exact absurd (by simpa [Sparse.read] using heq i) h.2.1
    | cons c' cells' =>
      obtain ⟨i', x'⟩ := c'
      rw [Sparse.wfFrom_cons] at h'
      have hii : i = i' := by
        rcases Nat.lt_trichotomy i i' with hlt | heq' | hgt
        · have hi := heq i
          rw [Sparse.read, if_pos rfl, Sparse.read, if_neg (by omega),
            Sparse.read_below h'.2.2 (by omega)] at hi
          exact absurd hi h.2.1
        · exact heq'
        · have hi := heq i'
          rw [Sparse.read, if_neg (by omega), Sparse.read_below h.2.2 (by omega), Sparse.read,
            if_pos rfl] at hi
          exact absurd hi.symm h'.2.1
      subst hii
      have hx : x = x' := by simpa [Sparse.read] using heq i
      subst hx
      congr 1
      refine ih h.2.2 h'.2.2 fun k => ?_
      by_cases hk : k = i
      · subst hk
        rw [Sparse.read_below h.2.2 (by omega), Sparse.read_below h'.2.2 (by omega)]
      · simpa [Sparse.read, Ne.symm hk] using heq k

/-- In canonical form, writing back what a key holds changes nothing. -/
theorem Sparse.write_read_self (h : Sparse.wf d cells = true) :
    Sparse.write d cells k (Sparse.read d cells k) = cells := by
  refine Sparse.ext_of_wfFrom (Sparse.wf_write h) h fun j => ?_
  rw [Sparse.read_write]
  split <;> simp_all

end Sys2Proof.Machine
end

