-- ==== Sys2Proof/Laws/Memory.lean ====
section
/-! SUPPORT. The memory: what a byte reads as after a run of bytes is laid, that the reads and writes
of 2 and 4 bytes are made of bytes, and that every memory operation keeps the canonical form. -/

namespace Sys2Proof.Machine

variable {m m' : Memory} {a b : Word} {n k lo : Nat} {bytes : List Byte} {cells : List Host.Cell}

/-! ## The span rule -/

theorem Region.covers_iff {r : Region} :
    r.covers k n = true ↔ r.base ≤ k ∧ k + n ≤ r.base + r.size := by
  simp [Region.covers]

theorem Memory.covered_iff : m.covered a n = true ↔
    a.toNat + n ≤ 2 ^ 32 ∧ ∃ r ∈ m.regions, r.base ≤ a.toNat ∧ a.toNat + n ≤ r.base + r.size := by
  simp [Memory.covered, Region.covers_iff]

/-- Every byte of a covered span is covered. -/
theorem Memory.covered_byte (h : m.covered a n = true) {i : Nat} (hi : i < n) :
    m.covered (a + BitVec.ofNat 32 i) 1 = true := by
  rw [Memory.covered_iff] at h ⊢
  obtain ⟨hb, r, hr, h1, h2⟩ := h
  have : (a + BitVec.ofNat 32 i).toNat = a.toNat + i := by
    rw [BitVec.toNat_add, BitVec.toNat_ofNat]; omega
  exact ⟨by omega, r, hr, by omega, by omega⟩

/-- A covered span does not wrap: its i-th byte lies at `a.toNat + i`. -/
theorem Memory.covered_toNat (h : m.covered a n = true) {i : Nat} (hi : i < n) :
    (a + BitVec.ofNat 32 i).toNat = a.toNat + i := by
  have := (Memory.covered_iff.1 h).1
  rw [BitVec.toNat_add, BitVec.toNat_ofNat]
  omega

/-- The span rule looks at the regions only. -/
theorem Memory.covered_congr (h : m'.regions = m.regions) : m'.covered a n = m.covered a n := by
  simp [Memory.covered, h]

/-! ## Bytes -/

theorem Memory.readByte_of_covered (h : m.covered a 1 = true) :
    m.readByte a = some (m.cell a.toNat) := by simp [Memory.readByte, h]

/-- The byte a list of cells holds at j after a run of bytes was laid from k on. -/
theorem Memory.read_layBytes {j : Nat} :
    Sparse.read unlistedByte (Memory.layBytes cells k bytes) j =
      if h : k ≤ j ∧ j < k + bytes.length then bytes[j - k]'(by omega)
      else Sparse.read unlistedByte cells j := by
  induction bytes generalizing cells k with
  | nil =>
    have : ¬ (k ≤ j ∧ j < k + ([] : List Byte).length) := by simp
    rw [dif_neg this]
    rfl
  | cons x bytes ih =>
    rw [Memory.layBytes, ih, Sparse.read_write]
    by_cases hj : j = k
    · subst hj
      have : ¬ (j + 1 ≤ j ∧ j < j + 1 + bytes.length) := by omega
      simp
    · by_cases h : k + 1 ≤ j ∧ j < k + 1 + bytes.length
      · have h' : k ≤ j ∧ j < k + (x :: bytes).length := by
          rw [List.length_cons]; omega
        rw [dif_pos h, dif_pos h', List.getElem_cons, dif_neg (by omega)]
        congr 1
      · have h' : ¬ (k ≤ j ∧ j < k + (x :: bytes).length) := by
          rw [List.length_cons]; omega
        rw [dif_neg h, dif_neg h', if_neg hj]

/-- What a write of bytes does: it succeeds exactly on a covered span, keeps the regions, sets the
bytes of the span, and leaves every other cell. -/
theorem Memory.writeBytes_cases :
    (m.covered a bytes.length = false ∧ m.writeBytes a bytes = none) ∨
    (m.covered a bytes.length = true ∧ ∃ m', m.writeBytes a bytes = some m' ∧
      m'.regions = m.regions ∧
      ∀ j, m'.cell j =
        if h : a.toNat ≤ j ∧ j < a.toNat + bytes.length then bytes[j - a.toNat]'(by omega)
        else m.cell j) := by
  by_cases h : m.covered a bytes.length = true
  · exact .inr ⟨h, { m with cells := Memory.layBytes m.cells a.toNat bytes },
      by simp [Memory.writeBytes, h], rfl, fun j => Memory.read_layBytes⟩
  · exact .inl ⟨by simpa using h, by simp [Memory.writeBytes, h]⟩

/-- A read of one byte, from the regions and the cells. -/
theorem Memory.readByte_congr (hr : m'.regions = m.regions) (hc : m'.cell a.toNat = m.cell a.toNat) :
    m'.readByte a = m.readByte a := by
  simp [Memory.readByte, Memory.covered_congr hr, hc]

/-! ## The canonical form -/

theorem Memory.wf_iff : m.wf = true ↔
    regionsFrom 0 m.regions = true ∧ Sparse.wf unlistedByte m.cells = true ∧
      cellsMapped m.regions m.cells = true := by
  simp [Memory.wf, and_assoc]

theorem cellsMapped_iff {regions : List Region} : cellsMapped regions cells = true ↔
    ∀ c ∈ cells, ∃ r ∈ regions, r.base ≤ c.1 ∧ c.1 + 1 ≤ r.base + r.size := by
  simp [cellsMapped, Region.covers_iff]

theorem Memory.wf_layBytes (h : Sparse.wf unlistedByte cells = true) :
    Sparse.wf unlistedByte (Memory.layBytes cells k bytes) = true := by
  induction bytes generalizing cells k with
  | nil => exact h
  | cons x bytes ih => exact ih (Sparse.wf_write h)

/-- A cell after a run of bytes was laid lies in the run or was there before. -/
theorem Memory.mem_layBytes {c : Host.Cell} (h : c ∈ Memory.layBytes cells k bytes) :
    (k ≤ c.1 ∧ c.1 < k + bytes.length) ∨ c ∈ cells := by
  induction bytes generalizing cells k with
  | nil => exact .inr h
  | cons x bytes ih =>
    rw [List.length_cons]
    rcases ih h with h | h
    · exact .inl (by omega)
    · rcases Sparse.mem_write h with rfl | h
      · exact .inl (by dsimp; omega)
      · exact .inr h

/-- Laying bytes inside a region keeps every cell mapped. -/
theorem cellsMapped_layBytes {regions : List Region} {r : Region} (h : cellsMapped regions cells = true)
    (hr : r ∈ regions) (h1 : r.base ≤ k) (h2 : k + bytes.length ≤ r.base + r.size) :
    cellsMapped regions (Memory.layBytes cells k bytes) = true := by
  rw [cellsMapped_iff] at h ⊢
  intro c hc
  rcases Memory.mem_layBytes hc with hc | hc
  · exact ⟨r, hr, by omega, by omega⟩
  · exact h c hc

/-- A write of bytes keeps the canonical form. -/
theorem Memory.wf_writeBytes (h : m.wf = true) (hw : m.writeBytes a bytes = some m') :
    m'.wf = true := by
  by_cases hc : m.covered a bytes.length = true
  · simp only [Memory.writeBytes, hc, ↓reduceIte, Option.some.injEq] at hw
    subst hw
    rw [Memory.wf_iff] at h ⊢
    obtain ⟨-, r, hr, h1, h2⟩ := Memory.covered_iff.1 hc
    exact ⟨h.1, Memory.wf_layBytes h.2.1, cellsMapped_layBytes h.2.2 hr h1 h2⟩
  · simp [Memory.writeBytes, hc] at hw

theorem Memory.wf_writeByte {v : Word} (h : m.wf = true) (hw : m.writeByte a v = some m') :
    m'.wf = true := Memory.wf_writeBytes h hw

theorem Memory.wf_writeHalf {v : Word} (h : m.wf = true) (hw : m.writeHalf a v = some m') :
    m'.wf = true := Memory.wf_writeBytes h hw

theorem Memory.wf_writeWord {v : Word} (h : m.wf = true) (hw : m.writeWord a v = some m') :
    m'.wf = true := Memory.wf_writeBytes h hw

/-! ## The memory of an image -/

theorem Memory.wf_layImage {image : List ImageRegion} (h : Sparse.wf unlistedByte cells = true) :
    Sparse.wf unlistedByte (Memory.layImage cells image) = true := by
  induction image generalizing cells with
  | nil => exact h
  | cons r image ih => exact ih (Memory.wf_layBytes h)

/-- A cell after an image was laid lies in one of its regions or was there before. -/
theorem Memory.mem_layImage {image : List ImageRegion} {c : Host.Cell}
    (h : c ∈ Memory.layImage cells image) :
    (∃ r ∈ image, r.base ≤ c.1 ∧ c.1 < r.base + r.bytes.length) ∨ c ∈ cells := by
  induction image generalizing cells with
  | nil => exact .inr h
  | cons r image ih =>
    rcases ih h with ⟨r', hr', h'⟩ | h
    · exact .inl ⟨r', List.mem_cons_of_mem _ hr', h'⟩
    · rcases Memory.mem_layBytes h with h | h
      · exact .inl ⟨r, List.mem_cons_self, h⟩
      · exact .inr h

/-- The cells of an image are mapped by its regions. -/
theorem cellsMapped_ofImage (image : List ImageRegion) :
    cellsMapped (Memory.ofImage image).regions (Memory.ofImage image).cells = true := by
  rw [cellsMapped_iff]
  intro c hc
  rcases Memory.mem_layImage hc with ⟨r, hr, h1, h2⟩ | h
  · exact ⟨⟨r.base, r.bytes.length⟩, List.mem_map.2 ⟨r, hr, rfl⟩, h1, h2⟩
  · simp at h

/-! ## Mapping a span from outside -/

theorem regionsFrom_cons {r : Region} {regions : List Region} :
    regionsFrom lo (r :: regions) = true ↔ lo ≤ r.base ∧ 0 < r.size ∧
      r.base + r.size ≤ 2 ^ 32 ∧ regionsFrom (r.base + r.size) regions = true := by
  simp [regionsFrom, and_assoc]

theorem regionsFrom_mono {regions : List Region} {lo' : Nat} (h : regionsFrom lo regions = true)
    (hlo : lo' ≤ lo) : regionsFrom lo' regions = true := by
  cases regions with
  | nil => rfl
  | cons r regions =>
    rw [regionsFrom_cons] at h ⊢
    exact ⟨le_trans hlo h.1, h.2⟩

theorem regionsFrom_joinSpan {regions : List Region} {lo hi L : Nat}
    (h : regionsFrom L regions = true) (hL : L ≤ lo) (hlt : lo < hi) (hhi : hi ≤ 2 ^ 32) :
    regionsFrom L (joinSpan regions lo hi) = true := by
  induction regions generalizing lo hi L with
  | nil => simp [joinSpan, regionsFrom]; omega
  | cons r regions ih =>
    rw [regionsFrom_cons] at h
    obtain ⟨h1, h2, h3, h4⟩ := h
    unfold joinSpan
    split
    · rw [regionsFrom_cons]
      exact ⟨h1, h2, h3, ih h4 (by omega) hlt hhi⟩
    · split
      · simp only [regionsFrom_cons]
        exact ⟨hL, by omega, by omega, by omega, h2, h3, h4⟩
      · exact ih (regionsFrom_mono h4 (by omega)) (by omega) (by omega) (by omega)

/-- Joining a span maps it in one region. -/
theorem joinSpan_maps (regions : List Region) {lo hi : Nat} (hlt : lo ≤ hi) :
    ∃ r ∈ joinSpan regions lo hi, r.base ≤ lo ∧ hi ≤ r.base + r.size := by
  induction regions generalizing lo hi with
  | nil => exact ⟨_, List.mem_singleton.2 rfl, le_rfl, by dsimp; omega⟩
  | cons r regions ih =>
    unfold joinSpan
    split
    · obtain ⟨r', hr', h⟩ := ih hlt
      exact ⟨r', List.mem_cons_of_mem _ hr', h⟩
    · split
      · exact ⟨_, List.mem_cons_self, le_rfl, by dsimp; omega⟩
      · obtain ⟨r', hr', h1, h2⟩ := ih (lo := min lo r.base) (hi := max hi (r.base + r.size)) (by omega)
        exact ⟨r', hr', by omega, by omega⟩

/-- Joining a span keeps mapped what was mapped. -/
theorem joinSpan_keeps {regions : List Region} {lo hi : Nat} {r : Region} (hlt : lo ≤ hi)
    (h : r ∈ regions) :
    ∃ r' ∈ joinSpan regions lo hi, r'.base ≤ r.base ∧ r.base + r.size ≤ r'.base + r'.size := by
  induction regions generalizing lo hi with
  | nil => simp at h
  | cons x regions ih =>
    unfold joinSpan
    split
    · rcases List.mem_cons.1 h with rfl | h
      · exact ⟨r, List.mem_cons_self, le_rfl, le_rfl⟩
      · obtain ⟨r', hr', h'⟩ := ih hlt h
        exact ⟨r', List.mem_cons_of_mem _ hr', h'⟩
    · split
      · exact ⟨r, List.mem_cons_of_mem _ h, le_rfl, le_rfl⟩
      · rcases List.mem_cons.1 h with rfl | h
        · obtain ⟨r', hr', h1, h2⟩ := joinSpan_maps regions
            (lo := min lo r.base) (hi := max hi (r.base + r.size)) (by omega)
          exact ⟨r', hr', by omega, by omega⟩
        · exact ih (by omega) h

/-- Mapping a span keeps the regions canonical. -/
theorem regionsFrom_mapRegions {regions : List Region} (h : regionsFrom 0 regions = true)
    (hn : 0 < n) (hk : k + n ≤ 2 ^ 32) : regionsFrom 0 (mapRegions regions k n) = true := by
  unfold mapRegions
  split
  · exact h
  · exact regionsFrom_joinSpan h (Nat.zero_le _) (by omega) hk

/-- After mapping, one region holds the span. -/
theorem mapRegions_maps (regions : List Region) (k n : Nat) :
    ∃ r ∈ mapRegions regions k n, r.base ≤ k ∧ k + n ≤ r.base + r.size := by
  unfold mapRegions
  split
  next h => simpa [Region.covers_iff] using h
  next => exact joinSpan_maps regions (by omega)

/-- Placing bytes from outside keeps the canonical form. -/
theorem Memory.wf_place (h : m.wf = true) (hn : 0 < bytes.length) (hk : k + bytes.length ≤ 2 ^ 32) :
    (m.place k bytes).wf = true := by
  rw [Memory.wf_iff] at h ⊢
  obtain ⟨r, hr, h1, h2⟩ := mapRegions_maps m.regions k bytes.length
  refine ⟨regionsFrom_mapRegions h.1 hn hk, Memory.wf_layBytes h.2.1,
    cellsMapped_layBytes ?_ hr h1 h2⟩
  rw [cellsMapped_iff]
  intro c hc
  obtain ⟨r, hr, h3, h4⟩ := cellsMapped_iff.1 h.2.2 c hc
  unfold Memory.place mapRegions
  split
  · exact ⟨r, hr, h3, h4⟩
  · obtain ⟨r', hr', h5, h6⟩ := joinSpan_keeps (lo := k) (hi := k + bytes.length) (by omega) hr
    exact ⟨r', hr', by omega, by omega⟩

end Sys2Proof.Machine
end

