-- ==== Sys2Proof/Laws/State.lean ====
section
/-! SUPPORT. One lemma for each field of State under each operation that updates it, true by rfl. -/

namespace Sys2Proof.Machine

@[simp] theorem writeReg_pc (r : Reg) (v : Word) (s : State) : (writeReg r v s).pc = s.pc := rfl
@[simp] theorem writeReg_csrs (r : Reg) (v : Word) (s : State) : (writeReg r v s).csrs = s.csrs := rfl
@[simp] theorem writeReg_status (r : Reg) (v : Word) (s : State) : (writeReg r v s).status = s.status := rfl
@[simp] theorem writeReg_mem (r : Reg) (v : Word) (s : State) : (writeReg r v s).mem = s.mem := rfl
@[simp] theorem writeReg_params (r : Reg) (v : Word) (s : State) : (writeReg r v s).params = s.params := rfl

@[simp] theorem maskX0_pc (s : State) : (maskX0 s).pc = s.pc := rfl
@[simp] theorem maskX0_csrs (s : State) : (maskX0 s).csrs = s.csrs := rfl
@[simp] theorem maskX0_status (s : State) : (maskX0 s).status = s.status := rfl
@[simp] theorem maskX0_mem (s : State) : (maskX0 s).mem = s.mem := rfl
@[simp] theorem maskX0_params (s : State) : (maskX0 s).params = s.params := rfl

@[simp] theorem retire_pc (target : Word) (s : State) : (retire target s).pc = target := rfl
@[simp] theorem retire_csrs (target : Word) (s : State) : (retire target s).csrs = s.csrs := rfl
@[simp] theorem retire_status (target : Word) (s : State) : (retire target s).status = s.status := rfl
@[simp] theorem retire_mem (target : Word) (s : State) : (retire target s).mem = s.mem := rfl
@[simp] theorem retire_params (target : Word) (s : State) : (retire target s).params = s.params := rfl

@[simp] theorem retireWith_pc (rd : Reg) (v : Word) (s : State) : (retireWith rd v s).pc = nextPc s := rfl
@[simp] theorem retireWith_csrs (rd : Reg) (v : Word) (s : State) : (retireWith rd v s).csrs = s.csrs := rfl
@[simp] theorem retireWith_status (rd : Reg) (v : Word) (s : State) : (retireWith rd v s).status = s.status := rfl
@[simp] theorem retireWith_mem (rd : Reg) (v : Word) (s : State) : (retireWith rd v s).mem = s.mem := rfl
@[simp] theorem retireWith_params (rd : Reg) (v : Word) (s : State) : (retireWith rd v s).params = s.params := rfl

@[simp] theorem halt_pc (code : Word) (s : State) : (halt code s).pc = s.pc := rfl
@[simp] theorem halt_csrs (code : Word) (s : State) : (halt code s).csrs = s.csrs := rfl
@[simp] theorem halt_status (code : Word) (s : State) : (halt code s).status = .halted code := rfl
@[simp] theorem halt_mem (code : Word) (s : State) : (halt code s).mem = s.mem := rfl
@[simp] theorem halt_params (code : Word) (s : State) : (halt code s).params = s.params := rfl

@[simp] theorem raise_regs (reason : FaultReason) (s : State) : (raise reason s).regs = s.regs := rfl
@[simp] theorem raise_pc (reason : FaultReason) (s : State) : (raise reason s).pc = s.pc := rfl
@[simp] theorem raise_csrs (reason : FaultReason) (s : State) : (raise reason s).csrs = s.csrs := rfl
@[simp] theorem raise_status (reason : FaultReason) (s : State) : (raise reason s).status = .faulted reason := rfl
@[simp] theorem raise_mem (reason : FaultReason) (s : State) : (raise reason s).mem = s.mem := rfl
@[simp] theorem raise_params (reason : FaultReason) (s : State) : (raise reason s).params = s.params := rfl

@[simp] theorem trapReturn_pc (s : State) : (trapReturn s).pc = csrRead mepcIndex s.csrs := rfl
@[simp] theorem trapReturn_csrs (s : State) : (trapReturn s).csrs = s.csrs := rfl
@[simp] theorem trapReturn_status (s : State) : (trapReturn s).status = s.status := rfl
@[simp] theorem trapReturn_mem (s : State) : (trapReturn s).mem = s.mem := rfl
@[simp] theorem trapReturn_params (s : State) : (trapReturn s).params = s.params := rfl

@[simp] theorem retireCsr_pc (rd : Reg) (result : Word × CsrStore) (s : State) : (retireCsr rd result s).pc = nextPc s := rfl
@[simp] theorem retireCsr_csrs (rd : Reg) (result : Word × CsrStore) (s : State) : (retireCsr rd result s).csrs = result.2 := rfl
@[simp] theorem retireCsr_status (rd : Reg) (result : Word × CsrStore) (s : State) : (retireCsr rd result s).status = s.status := rfl
@[simp] theorem retireCsr_mem (rd : Reg) (result : Word × CsrStore) (s : State) : (retireCsr rd result s).mem = s.mem := rfl
@[simp] theorem retireCsr_params (rd : Reg) (result : Word × CsrStore) (s : State) : (retireCsr rd result s).params = s.params := rfl

@[simp] theorem placeWord_regs (w : Word) (s : State) : (placeWord w s).regs = s.regs := rfl
@[simp] theorem placeWord_pc (w : Word) (s : State) : (placeWord w s).pc = placePc s := rfl
@[simp] theorem placeWord_csrs (w : Word) (s : State) : (placeWord w s).csrs = s.csrs := rfl
@[simp] theorem placeWord_status (w : Word) (s : State) : (placeWord w s).status = .running := rfl
@[simp] theorem placeWord_mem (w : Word) (s : State) : (placeWord w s).mem = s.mem.place (placePc s).toNat (bytesOfWord w) := rfl
@[simp] theorem placeWord_params (w : Word) (s : State) : (placeWord w s).params = s.params := rfl

@[simp] theorem State.start_regs (image : List ImageRegion) (resetPc : Word) (params : Params) :
    (State.start image resetPc params).regs = Vector.replicate 32 0#32 := rfl
@[simp] theorem State.start_pc (image : List ImageRegion) (resetPc : Word) (params : Params) :
    (State.start image resetPc params).pc = resetPc := rfl
@[simp] theorem State.start_csrs (image : List ImageRegion) (resetPc : Word) (params : Params) :
    (State.start image resetPc params).csrs = [] := rfl
@[simp] theorem State.start_status (image : List ImageRegion) (resetPc : Word) (params : Params) :
    (State.start image resetPc params).status = .running := rfl
@[simp] theorem State.start_mem (image : List ImageRegion) (resetPc : Word) (params : Params) :
    (State.start image resetPc params).mem = Memory.ofImage image := rfl
@[simp] theorem State.start_params (image : List ImageRegion) (resetPc : Word) (params : Params) :
    (State.start image resetPc params).params = params := rfl

end Sys2Proof.Machine
end

