-- ==== Sys2Proof/Laws/Regs.lean ====
section
/-! SUPPORT. What a register reads as after each operation over registers. -/

namespace Sys2Proof.Machine

variable (r rd : Reg) (v target : Word) (s : State)

@[simp] theorem readReg_zero : readReg 0#5 s = 0#32 := by simp [readReg]

/-- Two states with one register file read alike. -/
theorem readReg_congr {s t : State} (h : t.regs = s.regs) (r : Reg) : readReg r t = readReg r s := by
  simp [readReg, h]

theorem readReg_writeReg : readReg r (writeReg rd v s) =
    if r = rd ∧ rd ≠ 0#5 then v else readReg r s := by
  unfold readReg writeReg
  by_cases h0 : r = 0#5
  · subst h0
    by_cases h : 0#5 = rd <;> simp [h]
  · by_cases h : r = rd
    · subst h
      simp [h0]
    · have : rd.toNat ≠ r.toNat := fun e => h (BitVec.eq_of_toNat_eq e.symm)
      simp [h0, h, this]

@[simp] theorem readReg_maskX0 : readReg r (maskX0 s) = readReg r s := by
  unfold readReg maskX0
  by_cases h0 : r = 0#5
  · simp [h0]
  · have : (0 : Nat) ≠ r.toNat := fun e => h0 (BitVec.eq_of_toNat_eq (by simp [← e]))
    simp [h0, this]

@[simp] theorem readReg_retire : readReg r (retire target s) = readReg r s := readReg_maskX0 r s

@[simp] theorem readReg_halt (code : Word) : readReg r (halt code s) = readReg r s := readReg_maskX0 r s

@[simp] theorem readReg_raise (reason : FaultReason) :
    readReg r (raise reason s) = readReg r s := rfl

@[simp] theorem readReg_trapReturn : readReg r (trapReturn s) = readReg r s := readReg_maskX0 r s

theorem readReg_retireWith : readReg r (retireWith rd v s) =
    if r = rd ∧ rd ≠ 0#5 then v else readReg r s := by
  simp [retireWith, readReg_writeReg]

theorem readReg_retireCsr (result : Word × CsrStore) : readReg r (retireCsr rd result s) =
    if r = rd ∧ rd ≠ 0#5 then result.1 else readReg r s := by
  rw [retireCsr, readReg_retireWith]
  rfl

/-! x0 holds 0 after every end of a step that does not fault (R23). -/

@[simp] theorem maskX0_x0 : (maskX0 s).regs[0] = 0#32 := by simp [maskX0]
@[simp] theorem retire_x0 : (retire target s).regs[0] = 0#32 := maskX0_x0 s
@[simp] theorem retireWith_x0 : (retireWith rd v s).regs[0] = 0#32 := maskX0_x0 _
@[simp] theorem halt_x0 (code : Word) : (halt code s).regs[0] = 0#32 := maskX0_x0 s
@[simp] theorem trapReturn_x0 : (trapReturn s).regs[0] = 0#32 := maskX0_x0 s
@[simp] theorem retireCsr_x0 (result : Word × CsrStore) :
    (retireCsr rd result s).regs[0] = 0#32 := maskX0_x0 _

end Sys2Proof.Machine
end

