-- ==== Sys2Proof/Laws/Ops.lean ====
section
/-! SUPPORT. One spec lemma for each shared operation of the meanings: everything it can do. -/

namespace Sys2Proof.Machine

variable {s : State}

/-! ## The CSR store -/

/-- A CSR read after a write (R28, R29). -/
theorem csrRead_csrWrite (j c : CsrIndex) (v : Word) (store : CsrStore) :
    csrRead j (csrWrite c v store) = if j = c then v else csrRead j store := by
  rw [csrRead, csrWrite, Sparse.read_write]
  by_cases h : j = c
  · simp [h]
  · have : j.toNat ≠ c.toNat := fun e => h (BitVec.eq_of_toNat_eq e)
    simp [h, this, csrRead]

@[simp] theorem csrRead_nil (c : CsrIndex) : csrRead c [] = 0#32 := rfl

/-- A CSR write keeps the canonical form. -/
theorem csrWrite_wf {store : CsrStore} (h : Sparse.wf 0#32 store = true) (c : CsrIndex) (v : Word) :
    Sparse.wf 0#32 (csrWrite c v store) = true := Sparse.wf_write h

/-- A CSR write keeps the store over the 4096 indices. -/
theorem csrWrite_indices {store : CsrStore}
    (h : store.all (fun c => decide (c.1 < 4096)) = true) (c : CsrIndex) (v : Word) :
    (csrWrite c v store).all (fun c => decide (c.1 < 4096)) = true := by
  rw [List.all_eq_true] at h ⊢
  intro e he
  rcases Sparse.mem_write he with rfl | he
  · simpa using c.isLt
  · exact h e he

/-! ## The ends of a step, as what they leave and what they change -/

/-- A completion that wrote rd before it moved. -/
theorem wroteReg_retire (rd : Reg) (v target : Word) :
    WroteReg rd v target s (retire target (writeReg rd v s)) :=
  ⟨fun r => by rw [readReg_retire, readReg_writeReg], rfl, rfl, rfl, rfl, rfl⟩

theorem wroteReg_retireWith (rd : Reg) (v : Word) :
    WroteReg rd v (nextPc s) s (retireWith rd v s) := wroteReg_retire rd v (nextPc s)

theorem moved_retire (target : Word) : Moved target s (retire target s) :=
  ⟨fun r => readReg_retire r target s, rfl, rfl, rfl, rfl, rfl⟩

/-- The end of a CSR instruction that wrote x to CSR c and v to rd. -/
theorem wroteCsr_retireCsr (rd : Reg) (v : Word) (c : CsrIndex) (x : Word) :
    WroteCsr rd v c x s (retireCsr rd (v, csrWrite c x s.csrs) s) :=
  ⟨fun r => readReg_retireCsr r rd s _, fun j => csrRead_csrWrite j c x s.csrs, rfl, rfl, rfl, rfl⟩

/-! ## Loads and stores -/

/-- What the end of a load can do: it wrote rd, or the read failed and the load fault was raised. -/
theorem finishLoad_cases (rd : Reg) (a : Word) (value : Option Word) :
    (∃ v, value = some v ∧ finishLoad rd a value s = .next (retireWith rd v s)) ∨
    (value = none ∧
      finishLoad rd a value s = .next (raise (.unmappedAddress a .load) s)) := by
  cases value with
  | none => exact .inr ⟨rfl, rfl⟩
  | some v => exact .inl ⟨v, rfl, rfl⟩

/-- What the end of a store can do: it took the memory after the write, or the write failed and the
store fault was raised. -/
theorem finishStore_cases (a : Word) (mem : Option Memory) :
    (∃ m, mem = some m ∧ finishStore a mem s = .next (retire (nextPc s) { s with mem := m })) ∨
    (mem = none ∧
      finishStore a mem s = .next (raise (.unmappedAddress a .store) s)) := by
  cases mem with
  | none => exact .inr ⟨rfl, rfl⟩
  | some m => exact .inl ⟨m, rfl, rfl⟩

/-- What an ECALL leaves, by the handler's outcome (R249). -/
theorem ecallNext_cases (o : EcallOutcome) :
    (∃ code, o = .exit code ∧ ecallNext o s = halt code s) ∨
    (o = .goOn ∧ ecallNext o s = retire (nextPc s) s) ∨
    (o = .unhandled ∧ ecallNext o s = raise .unhandledEnvironmentCall s) := by
  cases o with
  | exit code => exact .inl ⟨code, rfl, rfl⟩
  | goOn => exact .inr (.inl ⟨rfl, rfl⟩)
  | unhandled => exact .inr (.inr ⟨rfl, rfl⟩)

end Sys2Proof.Machine
end

