-- ==== Sys2Proof/Laws/Exec.lean ====
section
/-! SUPPORT. What an instruction can do, said once: the shapes of the next state of `exec`. -/

namespace Sys2Proof.Machine

/-- The shapes of the next state of an instruction. -/
inductive ExecShape (i : Instr) (s t : State) : Prop where
  /-- It wrote its destination and moved. -/
  | wrote (rd : Reg) (v target : Word) (hd : destOf i = some rd)
      (ht : t = retire target (writeReg rd v s))
  /-- It only moved. -/
  | moved (target : Word) (ht : t = retire target s)
  /-- It put x in its CSR and the CSR's old value in its destination. -/
  | csr (rd : Reg) (c : CsrIndex) (x : Word) (hd : destOf i = some rd)
      (hc : csrTargetOf i = some c)
      (ht : t = retireCsr rd (csrRead c s.csrs, csrWrite c x s.csrs) s)
  /-- It stored a run of bytes over its span. -/
  | stored (a : Word) (bytes : List Byte) (m : Memory) (hs : storeSpan i s = some (a, bytes.length))
      (hw : s.mem.writeBytes a bytes = some m) (ht : t = retire (nextPc s) { s with mem := m })
  /-- It was an ECALL the handler answered with an exit. -/
  | halted (code : Word) (hi : i = .ecall) (ht : t = halt code s)
  /-- It raised a fault. -/
  | raised (reason : FaultReason) (ht : t = raise reason s)

variable {i : Instr} {s t : State}

/-- A next state is the one the outcome holds. -/
theorem next_inj {t' : State} (h : (.next t' : StepOutcome) = .next t) : t = t' := by
  cases h
  rfl

theorem shape_of_load {rd : Reg} {a : Word} {value : Option Word} (hd : destOf i = some rd)
    (h : finishLoad rd a value s = .next t) : ExecShape i s t := by
  rcases finishLoad_cases (s := s) rd a value with ⟨v, -, hv⟩ | ⟨-, hv⟩ <;> rw [hv] at h
  · exact .wrote rd v (nextPc s) hd (next_inj h)
  · exact .raised _ (next_inj h)

theorem shape_of_store {a : Word} {bytes : List Byte} (hs : storeSpan i s = some (a, bytes.length))
    (h : finishStore a (s.mem.writeBytes a bytes) s = .next t) : ExecShape i s t := by
  rcases finishStore_cases (s := s) a (s.mem.writeBytes a bytes) with ⟨m, hm, hv⟩ | ⟨-, hv⟩ <;>
    rw [hv] at h
  · exact .stored a bytes m hs hm (next_inj h)
  · exact .raised _ (next_inj h)

theorem shape_of_ecall {o : EcallOutcome} (h : (.next (ecallNext o s) : StepOutcome) = .next t) :
    ExecShape .ecall s t := by
  rcases ecallNext_cases (s := s) o with ⟨code, -, ho⟩ | ⟨-, ho⟩ | ⟨-, ho⟩ <;> rw [ho] at h
  · exact .halted code rfl (next_inj h)
  · exact .moved _ (next_inj h)
  · exact .raised _ (next_inj h)

/-- Every next state of an instruction has one of the shapes. -/
theorem exec_shape (h : exec i s = .next t) : ExecShape i s t := by
  cases i with
  | lui rd _ => exact .wrote rd _ _ rfl (next_inj h)
  | auipc rd _ => exact .wrote rd _ _ rfl (next_inj h)
  | jal rd _ => exact .wrote rd _ _ rfl (next_inj h)
  | jalr rd _ _ => exact .wrote rd _ _ rfl (next_inj h)
  | beq _ _ _ => exact .moved _ (next_inj h)
  | bne _ _ _ => exact .moved _ (next_inj h)
  | blt _ _ _ => exact .moved _ (next_inj h)
  | bge _ _ _ => exact .moved _ (next_inj h)
  | bltu _ _ _ => exact .moved _ (next_inj h)
  | bgeu _ _ _ => exact .moved _ (next_inj h)
  | lb _ _ _ => exact shape_of_load rfl h
  | lh _ _ _ => exact shape_of_load rfl h
  | lw _ _ _ => exact shape_of_load rfl h
  | lbu _ _ _ => exact shape_of_load rfl h
  | lhu _ _ _ => exact shape_of_load rfl h
  | sb _ _ _ => exact shape_of_store rfl h
  | sh _ _ _ => exact shape_of_store rfl h
  | sw _ _ _ => exact shape_of_store rfl h
  | addi rd _ _ => exact .wrote rd _ _ rfl (next_inj h)
  | slti rd _ _ => exact .wrote rd _ _ rfl (next_inj h)
  | sltiu rd _ _ => exact .wrote rd _ _ rfl (next_inj h)
  | xori rd _ _ => exact .wrote rd _ _ rfl (next_inj h)
  | ori rd _ _ => exact .wrote rd _ _ rfl (next_inj h)
  | andi rd _ _ => exact .wrote rd _ _ rfl (next_inj h)
  | slli rd _ _ => exact .wrote rd _ _ rfl (next_inj h)
  | srli rd _ _ => exact .wrote rd _ _ rfl (next_inj h)
  | srai rd _ _ => exact .wrote rd _ _ rfl (next_inj h)
  | add rd _ _ => exact .wrote rd _ _ rfl (next_inj h)
  | sub rd _ _ => exact .wrote rd _ _ rfl (next_inj h)
  | sll rd _ _ => exact .wrote rd _ _ rfl (next_inj h)
  | slt rd _ _ => exact .wrote rd _ _ rfl (next_inj h)
  | sltu rd _ _ => exact .wrote rd _ _ rfl (next_inj h)
  | xor rd _ _ => exact .wrote rd _ _ rfl (next_inj h)
  | srl rd _ _ => exact .wrote rd _ _ rfl (next_inj h)
  | sra rd _ _ => exact .wrote rd _ _ rfl (next_inj h)
  | or rd _ _ => exact .wrote rd _ _ rfl (next_inj h)
  | and rd _ _ => exact .wrote rd _ _ rfl (next_inj h)
  | fence _ _ _ _ _ => exact .moved _ (next_inj h)
  | ecall => exact shape_of_ecall h
  | ebreak => exact .raised _ (next_inj h)
  | mret => exact .moved _ (next_inj h)
  | csrrw rd csr _ => exact .csr rd csr _ rfl rfl (next_inj h)
  | csrrs rd csr _ => exact .csr rd csr _ rfl rfl (next_inj h)
  | csrrc rd csr _ => exact .csr rd csr _ rfl rfl (next_inj h)
  | csrrwi rd csr _ => exact .csr rd csr _ rfl rfl (next_inj h)
  | csrrsi rd csr _ => exact .csr rd csr _ rfl rfl (next_inj h)
  | csrrci rd csr _ => exact .csr rd csr _ rfl rfl (next_inj h)

end Sys2Proof.Machine
end

