-- ==== Sys2Proof/Laws/PerInstr.lean ====
section
/-! SUPPORT. Statements made of every instruction, one lemma for each constructor. -/

namespace Sys2Proof.Laws

/-- The encoding of the instruction is one the length rule R91 takes for four bytes long. -/
def FourByte.Statement (i : Instr) : Prop := instrLength ((encode i).extractLsb' 0 8) = 4

/-- A word whose low two bits are 0b11 starts a four-byte instruction. -/
theorem instrLength_of_bits {w : Word} (h0 : w.getLsbD 0 = true) (h1 : w.getLsbD 1 = true) :
    instrLength (w.extractLsb' 0 8) = 4 := by
  have h : (w.extractLsb' 0 8).extractLsb' 0 2 = 0b11#2 := by
    refine BitVec.eq_of_getLsbD_eq fun i hi => ?_
    interval_cases i <;> simp_all
  simp [instrLength, h]

/-! A word in each format is four bytes long when its opcode ends in 0b11. -/

theorem rFormat_fourByte {f7 : BitVec 7} {rs2 rs1 : Reg} {f3 : BitVec 3} {rd : Reg} {op : BitVec 7}
    (h0 : op.getLsbD 0 = true) (h1 : op.getLsbD 1 = true) :
    instrLength ((rFormat f7 rs2 rs1 f3 rd op).extractLsb' 0 8) = 4 := by
  apply instrLength_of_bits <;> simp_all [rFormat, fieldAt]

theorem iFormat_fourByte {field : BitVec 12} {rs1 : Reg} {f3 : BitVec 3} {rd : Reg} {op : BitVec 7}
    (h0 : op.getLsbD 0 = true) (h1 : op.getLsbD 1 = true) :
    instrLength ((iFormat field rs1 f3 rd op).extractLsb' 0 8) = 4 := by
  apply instrLength_of_bits <;> simp_all [iFormat, fieldAt]

theorem fenceFormat_fourByte {fm pred succ : BitVec 4} {rs1 : Reg} {f3 : BitVec 3} {rd : Reg} {op : BitVec 7}
    (h0 : op.getLsbD 0 = true) (h1 : op.getLsbD 1 = true) :
    instrLength ((fenceFormat fm pred succ rs1 f3 rd op).extractLsb' 0 8) = 4 := by
  apply instrLength_of_bits <;> simp_all [fenceFormat, fieldAt]

theorem sFormat_fourByte {imm : Word} {rs2 rs1 : Reg} {f3 : BitVec 3} {op : BitVec 7}
    (h0 : op.getLsbD 0 = true) (h1 : op.getLsbD 1 = true) :
    instrLength ((sFormat imm rs2 rs1 f3 op).extractLsb' 0 8) = 4 := by
  apply instrLength_of_bits <;> simp_all [sFormat, fieldAt]

theorem bFormat_fourByte {imm : Word} {rs2 rs1 : Reg} {f3 : BitVec 3} {op : BitVec 7}
    (h0 : op.getLsbD 0 = true) (h1 : op.getLsbD 1 = true) :
    instrLength ((bFormat imm rs2 rs1 f3 op).extractLsb' 0 8) = 4 := by
  apply instrLength_of_bits <;> simp_all [bFormat, fieldAt]

theorem uFormat_fourByte {imm : Word} {rd : Reg} {op : BitVec 7}
    (h0 : op.getLsbD 0 = true) (h1 : op.getLsbD 1 = true) :
    instrLength ((uFormat imm rd op).extractLsb' 0 8) = 4 := by
  apply instrLength_of_bits <;> simp_all [uFormat, fieldAt]

theorem jFormat_fourByte {imm : Word} {rd : Reg} {op : BitVec 7}
    (h0 : op.getLsbD 0 = true) (h1 : op.getLsbD 1 = true) :
    instrLength ((jFormat imm rd op).extractLsb' 0 8) = 4 := by
  apply instrLength_of_bits <;> simp_all [jFormat, fieldAt]

/-! One lemma for each constructor. -/

theorem FourByte.lui (rd : Reg) (imm : Word) : FourByte.Statement (.lui rd imm) :=
  uFormat_fourByte rfl rfl

theorem FourByte.auipc (rd : Reg) (imm : Word) : FourByte.Statement (.auipc rd imm) :=
  uFormat_fourByte rfl rfl

theorem FourByte.jal (rd : Reg) (imm : Word) : FourByte.Statement (.jal rd imm) :=
  jFormat_fourByte rfl rfl

theorem FourByte.jalr (rd rs1 : Reg) (imm : Word) : FourByte.Statement (.jalr rd rs1 imm) :=
  iFormat_fourByte rfl rfl

theorem FourByte.beq (rs1 rs2 : Reg) (imm : Word) : FourByte.Statement (.beq rs1 rs2 imm) :=
  bFormat_fourByte rfl rfl

theorem FourByte.bne (rs1 rs2 : Reg) (imm : Word) : FourByte.Statement (.bne rs1 rs2 imm) :=
  bFormat_fourByte rfl rfl

theorem FourByte.blt (rs1 rs2 : Reg) (imm : Word) : FourByte.Statement (.blt rs1 rs2 imm) :=
  bFormat_fourByte rfl rfl

theorem FourByte.bge (rs1 rs2 : Reg) (imm : Word) : FourByte.Statement (.bge rs1 rs2 imm) :=
  bFormat_fourByte rfl rfl

theorem FourByte.bltu (rs1 rs2 : Reg) (imm : Word) : FourByte.Statement (.bltu rs1 rs2 imm) :=
  bFormat_fourByte rfl rfl

theorem FourByte.bgeu (rs1 rs2 : Reg) (imm : Word) : FourByte.Statement (.bgeu rs1 rs2 imm) :=
  bFormat_fourByte rfl rfl

theorem FourByte.lb (rd rs1 : Reg) (imm : Word) : FourByte.Statement (.lb rd rs1 imm) :=
  iFormat_fourByte rfl rfl

theorem FourByte.lh (rd rs1 : Reg) (imm : Word) : FourByte.Statement (.lh rd rs1 imm) :=
  iFormat_fourByte rfl rfl

theorem FourByte.lw (rd rs1 : Reg) (imm : Word) : FourByte.Statement (.lw rd rs1 imm) :=
  iFormat_fourByte rfl rfl

theorem FourByte.lbu (rd rs1 : Reg) (imm : Word) : FourByte.Statement (.lbu rd rs1 imm) :=
  iFormat_fourByte rfl rfl

theorem FourByte.lhu (rd rs1 : Reg) (imm : Word) : FourByte.Statement (.lhu rd rs1 imm) :=
  iFormat_fourByte rfl rfl

theorem FourByte.sb (rs2 rs1 : Reg) (imm : Word) : FourByte.Statement (.sb rs2 rs1 imm) :=
  sFormat_fourByte rfl rfl

theorem FourByte.sh (rs2 rs1 : Reg) (imm : Word) : FourByte.Statement (.sh rs2 rs1 imm) :=
  sFormat_fourByte rfl rfl

theorem FourByte.sw (rs2 rs1 : Reg) (imm : Word) : FourByte.Statement (.sw rs2 rs1 imm) :=
  sFormat_fourByte rfl rfl

theorem FourByte.addi (rd rs1 : Reg) (imm : Word) : FourByte.Statement (.addi rd rs1 imm) :=
  iFormat_fourByte rfl rfl

theorem FourByte.slti (rd rs1 : Reg) (imm : Word) : FourByte.Statement (.slti rd rs1 imm) :=
  iFormat_fourByte rfl rfl

theorem FourByte.sltiu (rd rs1 : Reg) (imm : Word) : FourByte.Statement (.sltiu rd rs1 imm) :=
  iFormat_fourByte rfl rfl

theorem FourByte.xori (rd rs1 : Reg) (imm : Word) : FourByte.Statement (.xori rd rs1 imm) :=
  iFormat_fourByte rfl rfl

theorem FourByte.ori (rd rs1 : Reg) (imm : Word) : FourByte.Statement (.ori rd rs1 imm) :=
  iFormat_fourByte rfl rfl

theorem FourByte.andi (rd rs1 : Reg) (imm : Word) : FourByte.Statement (.andi rd rs1 imm) :=
  iFormat_fourByte rfl rfl

theorem FourByte.slli (rd rs1 : Reg) (shamt : BitVec 5) : FourByte.Statement (.slli rd rs1 shamt) :=
  rFormat_fourByte rfl rfl

theorem FourByte.srli (rd rs1 : Reg) (shamt : BitVec 5) : FourByte.Statement (.srli rd rs1 shamt) :=
  rFormat_fourByte rfl rfl

theorem FourByte.srai (rd rs1 : Reg) (shamt : BitVec 5) : FourByte.Statement (.srai rd rs1 shamt) :=
  rFormat_fourByte rfl rfl

theorem FourByte.add (rd rs1 rs2 : Reg) : FourByte.Statement (.add rd rs1 rs2) :=
  rFormat_fourByte rfl rfl

theorem FourByte.sub (rd rs1 rs2 : Reg) : FourByte.Statement (.sub rd rs1 rs2) :=
  rFormat_fourByte rfl rfl

theorem FourByte.sll (rd rs1 rs2 : Reg) : FourByte.Statement (.sll rd rs1 rs2) :=
  rFormat_fourByte rfl rfl

theorem FourByte.slt (rd rs1 rs2 : Reg) : FourByte.Statement (.slt rd rs1 rs2) :=
  rFormat_fourByte rfl rfl

theorem FourByte.sltu (rd rs1 rs2 : Reg) : FourByte.Statement (.sltu rd rs1 rs2) :=
  rFormat_fourByte rfl rfl

theorem FourByte.xor (rd rs1 rs2 : Reg) : FourByte.Statement (.xor rd rs1 rs2) :=
  rFormat_fourByte rfl rfl

theorem FourByte.srl (rd rs1 rs2 : Reg) : FourByte.Statement (.srl rd rs1 rs2) :=
  rFormat_fourByte rfl rfl

theorem FourByte.sra (rd rs1 rs2 : Reg) : FourByte.Statement (.sra rd rs1 rs2) :=
  rFormat_fourByte rfl rfl

theorem FourByte.or (rd rs1 rs2 : Reg) : FourByte.Statement (.or rd rs1 rs2) :=
  rFormat_fourByte rfl rfl

theorem FourByte.and (rd rs1 rs2 : Reg) : FourByte.Statement (.and rd rs1 rs2) :=
  rFormat_fourByte rfl rfl

theorem FourByte.fence (fm pred succ : BitVec 4) (rs1 rd : Reg) : FourByte.Statement (.fence fm pred succ rs1 rd) :=
  fenceFormat_fourByte rfl rfl

theorem FourByte.ecall : FourByte.Statement .ecall :=
  iFormat_fourByte rfl rfl

theorem FourByte.ebreak : FourByte.Statement .ebreak :=
  iFormat_fourByte rfl rfl

theorem FourByte.mret : FourByte.Statement .mret :=
  iFormat_fourByte rfl rfl

theorem FourByte.csrrw (rd : Reg) (csr : CsrIndex) (rs1 : Reg) : FourByte.Statement (.csrrw rd csr rs1) :=
  iFormat_fourByte rfl rfl

theorem FourByte.csrrs (rd : Reg) (csr : CsrIndex) (rs1 : Reg) : FourByte.Statement (.csrrs rd csr rs1) :=
  iFormat_fourByte rfl rfl

theorem FourByte.csrrc (rd : Reg) (csr : CsrIndex) (rs1 : Reg) : FourByte.Statement (.csrrc rd csr rs1) :=
  iFormat_fourByte rfl rfl

theorem FourByte.csrrwi (rd : Reg) (csr : CsrIndex) (uimm : BitVec 5) : FourByte.Statement (.csrrwi rd csr uimm) :=
  iFormat_fourByte rfl rfl

theorem FourByte.csrrsi (rd : Reg) (csr : CsrIndex) (uimm : BitVec 5) : FourByte.Statement (.csrrsi rd csr uimm) :=
  iFormat_fourByte rfl rfl

theorem FourByte.csrrci (rd : Reg) (csr : CsrIndex) (uimm : BitVec 5) : FourByte.Statement (.csrrci rd csr uimm) :=
  iFormat_fourByte rfl rfl

end Sys2Proof.Laws
end

