-- ==== Sys2Proof/Laws/Step.lean ====
section
/-! SUPPORT. What a step can do, said once, and what the front of a step delivers. -/

namespace Sys2Proof.Machine

variable {s t : State}

/-- A step is taken exactly while the run status is running. -/
theorem stepEnded_none_iff : stepEnded s = none ↔ s.status = .running := by
  cases h : s.status <;> simp [stepEnded, h]

/-- Every next state of a step: the run was running, and the front of the step raised a fault or
delivered an instruction that was performed. -/
theorem step_cases (h : step s = .next t) : s.status = .running ∧
    ((∃ reason, fetchDecode s.pc s.mem = .raises reason ∧ t = raise reason s) ∨
      (∃ i, fetchDecode s.pc s.mem = .instr i ∧ exec i s = .next t)) := by
  unfold step at h
  split at h
  · cases h
  next hr =>
    refine ⟨stepEnded_none_iff.1 hr, ?_⟩
    split at h
    next reason hf => exact .inl ⟨reason, hf, next_inj h⟩
    next i hf => exact .inr ⟨i, hf, h⟩

/-- The bytes a fetch delivers: two or four, as the first byte's length says, all in one region; or
the span is not mapped (R64). -/
theorem fetchBytes_cases (a : Word) (m : Memory) :
    (fetchBytes a m = none ∧
      (m.covered a 1 = false ∨ m.covered a (instrLength (m.cell a.toNat)) = false)) ∨
    (m.covered a 1 = true ∧ m.covered a (instrLength (m.cell a.toNat)) = true ∧
      fetchBytes a m =
        some ((List.range (instrLength (m.cell a.toNat))).map (fun i => m.cell (a.toNat + i)))) := by
  by_cases h1 : m.covered a 1 = true
  · by_cases h2 : m.covered a (instrLength (m.cell a.toNat)) = true
    · exact .inr ⟨h1, h2, by simp [fetchBytes, Memory.readByte, h1, h2]⟩
    · exact .inl ⟨by simp [fetchBytes, Memory.readByte, h1, h2], .inr (by simpa using h2)⟩
  · exact .inl ⟨by simp [fetchBytes, Memory.readByte, h1], .inl (by simpa using h1)⟩

/-- A mapped four-byte instruction: the front of a step delivers what its word decodes to, or the
illegal instruction. -/
theorem fetchDecode_word {a w : Word} {m : Memory} (h : m.readWord a = some w)
    (hl : instrLength (m.cell a.toNat) = 4) :
    fetchDecode a m = match decodeWord w with
      | some i => .instr i
      | none => .raises (.illegalInstruction a w) := by
  have hc : m.covered a 4 = true := by
    by_contra hc
    simp [Memory.readWord, hc] at h
  have h1 : m.covered a 1 = true := by
    have := Memory.covered_byte hc (i := 0) (by omega)
    simpa using this
  have hw : wordOfBytes (m.cell a.toNat) (m.cell (a.toNat + 1)) (m.cell (a.toNat + 2))
      (m.cell (a.toNat + 3)) = w := by simpa [Memory.readWord, hc] using h
  have hb : fetchBytes a m = some [m.cell a.toNat, m.cell (a.toNat + 1), m.cell (a.toNat + 2),
      m.cell (a.toNat + 3)] := by
    rcases fetchBytes_cases a m with ⟨-, hn | hn⟩ | ⟨-, -, hb⟩
    · simp [h1] at hn
    · simp [hl, hc] at hn
    · rw [hb, hl]
      rfl
  cases hd : decodeWord w <;>
    simp [fetchDecode, hb, decode, hl, hw, hd, rejectFault, Reject.word]

/-- A mapped parcel of length 2: the front of a step raises the illegal instruction with the parcel
zero-extended (R92). -/
theorem fetchDecode_half {a : Word} {p : Half} {m : Memory} (h : m.readHalf a = some p)
    (hl : instrLength (m.cell a.toNat) = 2) :
    fetchDecode a m = .raises (.illegalInstruction a (p.setWidth 32)) := by
  have hc : m.covered a 2 = true := by
    by_contra hc
    simp [Memory.readHalf, hc] at h
  have h1 : m.covered a 1 = true := by
    have := Memory.covered_byte hc (i := 0) (by omega)
    simpa using this
  have hp : halfOfBytes (m.cell a.toNat) (m.cell (a.toNat + 1)) = p := by
    simpa [Memory.readHalf, hc] using h
  have hb : fetchBytes a m = some [m.cell a.toNat, m.cell (a.toNat + 1)] := by
    rcases fetchBytes_cases a m with ⟨-, hn | hn⟩ | ⟨-, -, hb⟩
    · simp [h1] at hn
    · simp [hl, hc] at hn
    · rw [hb, hl]
      rfl
  simp [fetchDecode, hb, decode, hl, hp, rejectFault, Reject.word]

/-- While the run is running, a step is its front and then the instruction. -/
theorem step_of_running (h : s.status = .running) :
    step s = match fetchDecode s.pc s.mem with
      | .raises reason => .next (raise reason s)
      | .instr i => exec i s := by
  unfold step
  split
  next hf => rw [stepEnded_none_iff.2 h] at hf; cases hf
  next => rfl

/-- The invariant is about the register file, the CSR store and the memory only. -/
theorem Inv_of_raise {reason : FaultReason} (h : s.Inv) : (raise reason s).Inv := h

end Sys2Proof.Machine
end

