-- ==== Sys2Proof/Tests/Slice0.lean ====
section
/-! SUPPORT. The model's own tests: ill-formed terms, words the spec writes out, single steps from the
vectors of spec/95_test_vectors.md (each named after its vector), and a witness for every statement
that has hypotheses. Every expected value is the spec's. -/

open Sys2Proof Sys2Proof.Machine

/-! ## Helpers -/

/-- The next state of an outcome, if it is one. -/
def nextOf (o : StepOutcome) : Option State :=
  match o with
  | .next t => some t
  | .fault _ => none
  | .refused _ => none

/-- An outcome is a next state that has a property, if evaluating it says so. -/
theorem exists_next {o : StepOutcome} {P : State → Prop} [DecidablePred P]
    (h : (nextOf o).any (fun t => decide (P t)) = true) : ∃ t, o = .next t ∧ P t := by
  cases o with
  | next t => exact ⟨t, rfl, by simpa [nextOf] using h⟩
  | fault f => simp [nextOf] at h
  | refused r => simp [nextOf] at h

/-- The data region of the vectors: 0x8000_1000 to 0x8000_1007. -/
def testData : ImageRegion :=
  { base := 0x80001000
    bytes := [0x78#8, 0x56#8, 0x34#8, 0x12#8, 0xF0#8, 0xFF#8, 0x00#8, 0x80#8] }

/-- The state of a vector: a code region of 16 bytes at pc with the word w first, the data region,
and the registers and CSRs named. -/
def vectorState (pc w : Word) (regs : List (Reg × Word)) (csrs : List (CsrIndex × Word)) : State :=
  let code : ImageRegion := { base := pc.toNat, bytes := bytesOfWord w ++ List.replicate 12 0#8 }
  let s := State.start [code, testData] pc Config.params
  let s := regs.foldl (fun s r => writeReg r.1 r.2 s) s
  { s with csrs := csrs.foldl (fun c r => csrWrite r.1 r.2 c) s.csrs }

/-- The state of a vector of the fetch: one region of the given bytes. -/
def bytesState (base : Word) (bytes : List Byte) (pc : Word) : State :=
  State.start [{ base := base.toNat, bytes := bytes }] pc Config.params

/-- The bytes of the data region. -/
def dataBytes (t : State) : List Byte :=
  (List.range 8).map (fun k => t.mem.cell (testData.base + k))

/-- One step, as far as it is a next state. -/
def stepped (s : State) : Option State := nextOf (step s)

/-- A register and the PC after one step. -/
def regAfter (r : Reg) (s : State) : Option (Word × Word) :=
  (stepped s).map (fun t => (readReg r t, t.pc))

/-- A register, a CSR and the PC after one step. -/
def csrAfter (r : Reg) (c : CsrIndex) (s : State) : Option (Word × Word × Word) :=
  (stepped s).map (fun t => (readReg r t, csrRead c t.csrs, t.pc))

/-- The PC after one step. -/
def pcAfter (s : State) : Option Word := (stepped s).map State.pc

/-- The data bytes and the PC after one step. -/
def dataAfter (s : State) : Option (List Byte × Word) :=
  (stepped s).map (fun t => (dataBytes t, t.pc))

/-! ## Ill-formed terms, refused by the check, and the bounds, admitted -/

theorem test_fitsI_refuses : wellFormed (.addi 1#5 1#5 2048#32) = false ∧
    wellFormed (.lw 1#5 1#5 (-2049#32)) = false ∧ wellFormed (.jalr 1#5 1#5 0x1000#32) = false ∧
    wellFormed (.sw 1#5 1#5 2048#32) = false := by decide
theorem test_fitsB_refuses : wellFormed (.beq 1#5 1#5 4096#32) = false ∧
    wellFormed (.bne 1#5 1#5 (-4098#32)) = false ∧ wellFormed (.bgeu 1#5 1#5 3#32) = false := by decide
theorem test_fitsU_refuses : wellFormed (.lui 1#5 0x12345001#32) = false ∧
    wellFormed (.auipc 1#5 0x00000800#32) = false := by decide
theorem test_fitsJ_refuses : wellFormed (.jal 1#5 1048576#32) = false ∧
    wellFormed (.jal 1#5 (-1048578#32)) = false ∧ wellFormed (.jal 1#5 1#32) = false := by decide

/-! ## Decoding: words written out in the spec -/

theorem test_decode_upper_and_jumps :
    decodeTableWord 32 0x123452B7 = some (.lui 5#5 0x12345000#32) ∧
    decodeTableWord 32 0x00001297 = some (.auipc 5#5 0x1000#32) ∧
    decodeTableWord 32 0x008000EF = some (.jal 1#5 8#32) ∧
    decodeTableWord 32 0x8000006F = some (.jal 0#5 (-1048576#32)) ∧
    decodeTableWord 32 0x7FFFF06F = some (.jal 0#5 1048574#32) ∧
    decodeTableWord 32 0x004280E7 = some (.jalr 1#5 5#5 4#32) := by decide
theorem test_decode_branches :
    decodeTableWord 32 0x00208863 = some (.beq 1#5 2#5 16#32) ∧
    decodeTableWord 32 0xFE209EE3 = some (.bne 1#5 2#5 (-4#32)) ∧
    decodeTableWord 32 0x0020C463 = some (.blt 1#5 2#5 8#32) ∧
    decodeTableWord 32 0x0020D463 = some (.bge 1#5 2#5 8#32) ∧
    decodeTableWord 32 0x0020E463 = some (.bltu 1#5 2#5 8#32) ∧
    decodeTableWord 32 0x0020F463 = some (.bgeu 1#5 2#5 8#32) ∧
    decodeTableWord 32 0x80000063 = some (.beq 0#5 0#5 (-4096#32)) ∧
    decodeTableWord 32 0x000000E3 = some (.beq 0#5 0#5 2048#32) := by decide
theorem test_decode_loads_and_stores :
    decodeTableWord 32 0x00430283 = some (.lb 5#5 6#5 4#32) ∧
    decodeTableWord 32 0x00631283 = some (.lh 5#5 6#5 6#32) ∧
    decodeTableWord 32 0x00032283 = some (.lw 5#5 6#5 0#32) ∧
    decodeTableWord 32 0x00434283 = some (.lbu 5#5 6#5 4#32) ∧
    decodeTableWord 32 0x00635283 = some (.lhu 5#5 6#5 6#32) ∧
    decodeTableWord 32 0x005300A3 = some (.sb 5#5 6#5 1#32) ∧
    decodeTableWord 32 0x00531123 = some (.sh 5#5 6#5 2#32) ∧
    decodeTableWord 32 0xFE532E23 = some (.sw 5#5 6#5 (-4#32)) ∧
    decodeTableWord 32 0x80002023 = some (.sw 0#5 0#5 (-2048#32)) := by decide
theorem test_decode_op_imm :
    decodeTableWord 32 0xFFF08113 = some (.addi 2#5 1#5 (-1#32)) ∧
    decodeTableWord 32 0xFFF0A113 = some (.slti 2#5 1#5 (-1#32)) ∧
    decodeTableWord 32 0xFFF0B113 = some (.sltiu 2#5 1#5 (-1#32)) ∧
    decodeTableWord 32 0x7FF0C113 = some (.xori 2#5 1#5 0x7FF#32) ∧
    decodeTableWord 32 0x0F00E113 = some (.ori 2#5 1#5 0xF0#32) ∧
    decodeTableWord 32 0xFF00F113 = some (.andi 2#5 1#5 (-16#32)) ∧
    decodeTableWord 32 0x01F09113 = some (.slli 2#5 1#5 31#5) ∧
    decodeTableWord 32 0x0040D113 = some (.srli 2#5 1#5 4#5) ∧
    decodeTableWord 32 0x4040D113 = some (.srai 2#5 1#5 4#5) := by decide
theorem test_decode_op :
    decodeTableWord 32 0x002081B3 = some (.add 3#5 1#5 2#5) ∧
    decodeTableWord 32 0x402081B3 = some (.sub 3#5 1#5 2#5) ∧
    decodeTableWord 32 0x002091B3 = some (.sll 3#5 1#5 2#5) ∧
    decodeTableWord 32 0x0020A1B3 = some (.slt 3#5 1#5 2#5) ∧
    decodeTableWord 32 0x0020B1B3 = some (.sltu 3#5 1#5 2#5) ∧
    decodeTableWord 32 0x0020C1B3 = some (.xor 3#5 1#5 2#5) ∧
    decodeTableWord 32 0x0020D1B3 = some (.srl 3#5 1#5 2#5) ∧
    decodeTableWord 32 0x4020D1B3 = some (.sra 3#5 1#5 2#5) ∧
    decodeTableWord 32 0x0020E1B3 = some (.or 3#5 1#5 2#5) ∧
    decodeTableWord 32 0x0020F1B3 = some (.and 3#5 1#5 2#5) := by decide
theorem test_decode_fence_and_system :
    decodeTableWord 32 0x0FF0000F = some (.fence 0#4 0xF#4 0xF#4 0#5 0#5) ∧
    decodeTableWord 32 0x0FF3028F = some (.fence 0#4 0xF#4 0xF#4 6#5 5#5) ∧
    decodeTableWord 32 0x00000073 = some (.ecall) ∧
    decodeTableWord 32 0x00100073 = some (.ebreak) ∧
    decodeTableWord 32 0x30200073 = some (.mret) ∧
    decodeTableWord 32 0x340312F3 = some (.csrrw 5#5 0x340#12 6#5) ∧
    decodeTableWord 32 0x300322F3 = some (.csrrs 5#5 0x300#12 6#5) ∧
    decodeTableWord 32 0x300332F3 = some (.csrrc 5#5 0x300#12 6#5) ∧
    decodeTableWord 32 0x341FD2F3 = some (.csrrwi 5#5 0x341#12 31#5) ∧
    decodeTableWord 32 0x300462F3 = some (.csrrsi 5#5 0x300#12 8#5) ∧
    decodeTableWord 32 0x3000F2F3 = some (.csrrci 5#5 0x300#12 1#5) := by decide
theorem test_decode_rejects :
    decode [0x01#8, 0x00#8, 0x13#8, 0x00#8] = .rejected (.parcel16 0x0001#16) ∧
    decode [0xFF#8, 0xFF#8, 0xFF#8, 0xFF#8] = .rejected (.illegalWord 0xFFFFFFFF#32) ∧
    decode [0x13#8, 0x00#8] = .rejected .truncated ∧
    decode (bytesOfWord 0x00000013#32 ++ [0xAA#8]) = .instr (.addi 0#5 0#5 0#32) [0xAA#8] := by decide

/-! ## Single steps: the vectors of spec/95_test_vectors.md -/

theorem test_addi_V1 : regAfter 2#5 (vectorState 0x80000000#32 0xFFF08113#32 [(1#5,
    0xFFFFFFFF#32)] []) = some (0xFFFFFFFE#32, 0x80000004#32) := by decide
theorem test_slti_V7 : regAfter 2#5 (vectorState 0x80000000#32 0xFFF0A113#32 [(1#5,
    0xFFFFFFFE#32)] []) = some (0x00000001#32, 0x80000004#32) := by decide
theorem test_slti_V9 : regAfter 2#5 (vectorState 0x80000000#32 0x0000A113#32 [(1#5,
    0x80000000#32)] []) = some (0x00000001#32, 0x80000004#32) := by decide
theorem test_sltiu_V10 : regAfter 2#5 (vectorState 0x80000000#32 0xFFF0B113#32 [(1#5,
    0x00000005#32)] []) = some (0x00000001#32, 0x80000004#32) := by decide
theorem test_sltiu_V12 : regAfter 2#5 (vectorState 0x80000000#32 0x0010B113#32 [] []) = some
    (0x00000001#32, 0x80000004#32) := by decide
theorem test_xori_V14 : regAfter 2#5 (vectorState 0x80000000#32 0xFFF0C113#32 [(1#5,
    0x0F0F0F0F#32)] []) = some (0xF0F0F0F0#32, 0x80000004#32) := by decide
theorem test_ori_V17 : regAfter 2#5 (vectorState 0x80000000#32 0x8000E113#32 [(1#5,
    0x00000001#32)] []) = some (0xFFFFF801#32, 0x80000004#32) := by decide
theorem test_andi_V19 : regAfter 2#5 (vectorState 0x80000000#32 0xFF00F113#32 [(1#5,
    0x1234567F#32)] []) = some (0x12345670#32, 0x80000004#32) := by decide
theorem test_slli_V20 : regAfter 2#5 (vectorState 0x80000000#32 0x01F09113#32 [(1#5,
    0x00000003#32)] []) = some (0x80000000#32, 0x80000004#32) := by decide
theorem test_srli_V22 : regAfter 2#5 (vectorState 0x80000000#32 0x0040D113#32 [(1#5,
    0x80000000#32)] []) = some (0x08000000#32, 0x80000004#32) := by decide
theorem test_srai_V24 : regAfter 2#5 (vectorState 0x80000000#32 0x4040D113#32 [(1#5,
    0x80000000#32)] []) = some (0xF8000000#32, 0x80000004#32) := by decide
theorem test_srai_V26 : regAfter 2#5 (vectorState 0x80000000#32 0x41F0D113#32 [(1#5,
    0x7FFFFFFF#32)] []) = some (0x00000000#32, 0x80000004#32) := by decide
theorem test_add_V31 : regAfter 3#5 (vectorState 0x80000000#32 0x002081B3#32 [(1#5,
    0xFFFFFFFF#32), (2#5, 0x00000001#32)] []) = some (0x00000000#32, 0x80000004#32) := by decide
theorem test_sub_V33 : regAfter 3#5 (vectorState 0x80000000#32 0x402081B3#32 [(1#5,
    0x80000000#32), (2#5, 0x00000001#32)] []) = some (0x7FFFFFFF#32, 0x80000004#32) := by decide
theorem test_sub_V34 : regAfter 1#5 (vectorState 0x80000000#32 0x401080B3#32 [(1#5,
    0x12345678#32)] []) = some (0x00000000#32, 0x80000004#32) := by decide
theorem test_sll_V36 : regAfter 3#5 (vectorState 0x80000000#32 0x002091B3#32 [(1#5,
    0x00000001#32), (2#5, 0xFFFFFFFF#32)] []) = some (0x80000000#32, 0x80000004#32) := by decide
theorem test_sll_V37 : regAfter 3#5 (vectorState 0x80000000#32 0x002091B3#32 [(1#5,
    0x0000000F#32), (2#5, 0x00000020#32)] []) = some (0x0000000F#32, 0x80000004#32) := by decide
theorem test_slt_V39 : regAfter 3#5 (vectorState 0x80000000#32 0x0020A1B3#32 [(1#5,
    0x80000000#32), (2#5, 0x7FFFFFFF#32)] []) = some (0x00000001#32, 0x80000004#32) := by decide
theorem test_sltu_V41 : regAfter 3#5 (vectorState 0x80000000#32 0x0020B1B3#32 [(1#5,
    0xFFFFFFFF#32), (2#5, 0x00000001#32)] []) = some (0x00000000#32, 0x80000004#32) := by decide
theorem test_xor_V43 : regAfter 3#5 (vectorState 0x80000000#32 0x0020C1B3#32 [(1#5,
    0xFF00FF00#32), (2#5, 0x0FF00FF0#32)] []) = some (0xF0F0F0F0#32, 0x80000004#32) := by decide
theorem test_srl_V46 : regAfter 3#5 (vectorState 0x80000000#32 0x0020D1B3#32 [(1#5,
    0x80000000#32), (2#5, 0x00000020#32)] []) = some (0x80000000#32, 0x80000004#32) := by decide
theorem test_sra_V48 : regAfter 3#5 (vectorState 0x80000000#32 0x4020D1B3#32 [(1#5,
    0xF0000000#32), (2#5, 0x00000024#32)] []) = some (0xFF000000#32, 0x80000004#32) := by decide
theorem test_or_V50 : regAfter 3#5 (vectorState 0x80000000#32 0x0020E1B3#32 [(1#5, 0x000000F0#32),
    (2#5, 0x0000000F#32)] []) = some (0x000000FF#32, 0x80000004#32) := by decide
theorem test_and_V51 : regAfter 3#5 (vectorState 0x80000000#32 0x0020F1B3#32 [(1#5,
    0x000000F0#32), (2#5, 0x0000003C#32)] []) = some (0x00000030#32, 0x80000004#32) := by decide
theorem test_lb_V55 : regAfter 5#5 (vectorState 0x80000000#32 0x00430283#32 [(6#5, 0x80001000#32)]
    []) = some (0xFFFFFFF0#32, 0x80000004#32) := by decide
theorem test_lh_V57 : regAfter 5#5 (vectorState 0x80000000#32 0x00631283#32 [(6#5, 0x80001000#32)]
    []) = some (0xFFFF8000#32, 0x80000004#32) := by decide
theorem test_lh_V58 : regAfter 5#5 (vectorState 0x80000000#32 0x00131283#32 [(6#5, 0x80001000#32)]
    []) = some (0x00003456#32, 0x80000004#32) := by decide
theorem test_lw_V61 : regAfter 5#5 (vectorState 0x80000000#32 0x00132283#32 [(6#5, 0x80001000#32)]
    []) = some (0xF0123456#32, 0x80000004#32) := by decide
theorem test_lw_V68 : stepped (vectorState 0x80000000#32 0x00532283#32 [(6#5, 0x80001000#32)] [])
    = some (raise (.unmappedAddress 0x80001005#32 .load) (vectorState 0x80000000#32 0x00532283#32
    [(6#5, 0x80001000#32)] [])) := by decide
theorem test_lbu_V64 : regAfter 5#5 (vectorState 0x80000000#32 0x00434283#32 [(6#5,
    0x80001000#32)] []) = some (0x000000F0#32, 0x80000004#32) := by decide
theorem test_lhu_V65 : regAfter 5#5 (vectorState 0x80000000#32 0x00635283#32 [(6#5,
    0x80001000#32)] []) = some (0x00008000#32, 0x80000004#32) := by decide
theorem test_sb_V74 : dataAfter (vectorState 0x80000000#32 0x005300A3#32 [(5#5, 0xAABBCCDD#32),
    (6#5, 0x80001000#32)] []) = some ([0x78#8, 0xDD#8, 0x34#8, 0x12#8, 0xF0#8, 0xFF#8, 0x00#8,
    0x80#8], 0x80000004#32) := by decide
theorem test_sh_V75 : dataAfter (vectorState 0x80000000#32 0x00531123#32 [(5#5, 0xAABBCCDD#32),
    (6#5, 0x80001000#32)] []) = some ([0x78#8, 0x56#8, 0xDD#8, 0xCC#8, 0xF0#8, 0xFF#8, 0x00#8,
    0x80#8], 0x80000004#32) := by decide
theorem test_sh_V80 : stepped (vectorState 0x80000000#32 0x005313A3#32 [(5#5, 0xAABBCCDD#32),
    (6#5, 0x80001000#32)] []) = some (raise (.unmappedAddress 0x80001007#32 .store) (vectorState
    0x80000000#32 0x005313A3#32 [(5#5, 0xAABBCCDD#32), (6#5, 0x80001000#32)] [])) := by decide
theorem test_sw_V76 : dataAfter (vectorState 0x80000000#32 0xFE532E23#32 [(5#5, 0xAABBCCDD#32),
    (6#5, 0x80001004#32)] []) = some ([0xDD#8, 0xCC#8, 0xBB#8, 0xAA#8, 0xF0#8, 0xFF#8, 0x00#8,
    0x80#8], 0x80000004#32) := by decide
theorem test_sw_V79 : dataAfter (vectorState 0x80000000#32 0x00632023#32 [(6#5, 0x80001000#32)]
    []) = some ([0x00#8, 0x10#8, 0x00#8, 0x80#8, 0xF0#8, 0xFF#8, 0x00#8, 0x80#8], 0x80000004#32)
    := by decide
theorem test_beq_V84 : pcAfter (vectorState 0x80000000#32 0x00208863#32 [(1#5, 0x00000005#32),
    (2#5, 0x00000005#32)] []) = some 0x80000010#32 := by decide
theorem test_beq_V98 : pcAfter (vectorState 0x80000000#32 0x80000063#32 [] []) = some
    0x7FFFF000#32 := by decide
theorem test_bne_V86 : pcAfter (vectorState 0x80000008#32 0xFE209EE3#32 [(1#5, 0x00000001#32),
    (2#5, 0x00000002#32)] []) = some 0x80000004#32 := by decide
theorem test_bne_V87 : pcAfter (vectorState 0x80000008#32 0xFE209EE3#32 [(1#5, 0x00000002#32),
    (2#5, 0x00000002#32)] []) = some 0x8000000C#32 := by decide
theorem test_blt_V88 : pcAfter (vectorState 0x80000000#32 0x0020C463#32 [(1#5, 0xFFFFFFFF#32)] [])
    = some 0x80000008#32 := by decide
theorem test_bge_V92 : pcAfter (vectorState 0x80000000#32 0x0010D463#32 [(1#5, 0x00000003#32)] [])
    = some 0x80000008#32 := by decide
theorem test_bge_V93 : pcAfter (vectorState 0x80000000#32 0x0020D463#32 [(1#5, 0x80000000#32),
    (2#5, 0x7FFFFFFF#32)] []) = some 0x80000004#32 := by decide
theorem test_bltu_V95 : pcAfter (vectorState 0x80000000#32 0x0020E463#32 [(1#5, 0xFFFFFFFF#32)]
    []) = some 0x80000004#32 := by decide
theorem test_bgeu_V96 : pcAfter (vectorState 0x80000000#32 0x0020F463#32 [(1#5, 0xFFFFFFFF#32)]
    []) = some 0x80000008#32 := by decide
theorem test_jal_V102 : regAfter 1#5 (vectorState 0x80000000#32 0x008000EF#32 [] []) = some
    (0x80000004#32, 0x80000008#32) := by decide
theorem test_jal_V105 : regAfter 1#5 (vectorState 0x80000000#32 0x7FFFF0EF#32 [] []) = some
    (0x80000004#32, 0x800FFFFE#32) := by decide
theorem test_jalr_V108 : regAfter 5#5 (vectorState 0x80000010#32 0x000282E7#32 [(5#5,
    0x80000200#32)] []) = some (0x80000014#32, 0x80000200#32) := by decide
theorem test_jalr_V111 : regAfter 1#5 ({ vectorState 0x80000000#32 0xFFF280E7#32 [(5#5,
    0x80000100#32)] [] with params := ⟨true, .reference⟩ }) = some (0x80000004#32, 0x800000FE#32)
    := by decide
theorem test_lui_V115 : regAfter 5#5 (vectorState 0x80000000#32 0xFFFFF2B7#32 [(5#5,
    0x00000123#32)] []) = some (0xFFFFF000#32, 0x80000004#32) := by decide
theorem test_auipc_V118 : regAfter 5#5 (vectorState 0x80000000#32 0x80000297#32 [] []) = some
    (0x00000000#32, 0x80000004#32) := by decide
theorem test_auipc_V120 : regAfter 5#5 (vectorState 0x80000040#32 0x00000297#32 [] []) = some
    (0x80000040#32, 0x80000044#32) := by decide
theorem test_fence_V124 : pcAfter (vectorState 0x80000000#32 0x0FF3028F#32 [(6#5, 0x00000007#32)]
    []) = some 0x80000004#32 := by decide
theorem test_csrrw_V127 : csrAfter 6#5 0x340#12 (vectorState 0x80000000#32 0x34031373#32 [(6#5,
    0x00000022#32)] [(0x340#12, 0x00000011#32)]) = some (0x00000011#32, 0x00000022#32,
    0x80000004#32) := by decide
theorem test_csrrs_V130 : csrAfter 5#5 0x300#12 (vectorState 0x80000000#32 0x300322F3#32 [(6#5,
    0x00000002#32)] [(0x300#12, 0x00000005#32)]) = some (0x00000005#32, 0x00000007#32,
    0x80000004#32) := by decide
theorem test_csrrc_V133 : csrAfter 5#5 0x300#12 (vectorState 0x80000000#32 0x300332F3#32 [(6#5,
    0x00000002#32)] [(0x300#12, 0x00000007#32)]) = some (0x00000007#32, 0x00000005#32,
    0x80000004#32) := by decide
theorem test_csrrwi_V136 : csrAfter 5#5 0x341#12 (vectorState 0x80000000#32 0x341052F3#32 []
    [(0x341#12, 0x80000000#32)]) = some (0x80000000#32, 0x00000000#32, 0x80000004#32) := by decide
theorem test_csrrsi_V137 : csrAfter 5#5 0x300#12 (vectorState 0x80000000#32 0x300462F3#32 []
    [(0x300#12, 0x00000005#32)]) = some (0x00000005#32, 0x0000000D#32, 0x80000004#32) := by decide
theorem test_csrrci_V138 : csrAfter 5#5 0x300#12 (vectorState 0x80000000#32 0x3000F2F3#32 []
    [(0x300#12, 0x0000000D#32)]) = some (0x0000000D#32, 0x0000000C#32, 0x80000004#32) := by decide
theorem test_ecall_V141 : stepped (vectorState 0x80000000#32 0x00000073#32 [(17#5, 0x0000005D#32),
    (10#5, 0x00000007#32)] []) = some { vectorState 0x80000000#32 0x00000073#32 [(17#5,
    0x0000005D#32), (10#5, 0x00000007#32)] [] with status := .halted 0x00000007#32 } := by decide
theorem test_ecall_V143 : stepped (vectorState 0x80000000#32 0x00000073#32 [(17#5, 0x00000040#32),
    (10#5, 0x00000001#32)] []) = some (raise (.unhandledEnvironmentCall) (vectorState
    0x80000000#32 0x00000073#32 [(17#5, 0x00000040#32), (10#5, 0x00000001#32)] [])) := by decide
theorem test_mret_V145 : pcAfter (vectorState 0x80000000#32 0x30200073#32 [] [(0x341#12,
    0x80000100#32)]) = some 0x80000100#32 := by decide
theorem test_mret_V147 : pcAfter (vectorState 0x80000000#32 0x30200073#32 [] [(0x341#12,
    0x80000003#32)]) = some 0x80000003#32 := by decide
theorem test_ebreak_V148 : stepped (vectorState 0x80000020#32 0x00100073#32 [] []) = some (raise
    (.illegalInstruction 0x80000020#32 0x00100073#32) (vectorState 0x80000020#32 0x00100073#32 []
    [])) := by decide
theorem test_addi_V5 : regAfter 0#5 (vectorState 0x80000000#32 0x00508013#32 [(1#5,
    0x00000007#32)] []) = some (0x00000000#32, 0x80000004#32) := by decide
theorem test_mul_V53 : stepped (vectorState 0x80000000#32 0x022081B3#32 [(1#5, 0x00000002#32),
    (2#5, 0x00000003#32)] []) = some (raise (.illegalInstruction 0x80000000#32 0x022081B3#32)
    (vectorState 0x80000000#32 0x022081B3#32 [(1#5, 0x00000002#32), (2#5, 0x00000003#32)] [])) :=
    by decide
theorem test_fetch_V152 : stepped (bytesState 0x80000000#32 [0x00#8, 0x00#8, 0x00#8, 0x00#8]
    0x80000000#32) = some (raise (.illegalInstruction 0x80000000#32 0x00000000#32) (bytesState
    0x80000000#32 [0x00#8, 0x00#8, 0x00#8, 0x00#8] 0x80000000#32)) := by decide
theorem test_fetch_V154 : stepped (bytesState 0x80000000#32 [0x05#8, 0x45#8] 0x80000000#32) = some
    (raise (.illegalInstruction 0x80000000#32 0x00004505#32) (bytesState 0x80000000#32 [0x05#8,
    0x45#8] 0x80000000#32)) := by decide
theorem test_fetch_V156 : stepped (bytesState 0x80000000#32 [0x13#8, 0x00#8] 0x80000000#32) = some
    (raise (.unmappedAddress 0x80000000#32 .fetch) (bytesState 0x80000000#32 [0x13#8, 0x00#8]
    0x80000000#32)) := by decide
theorem test_fetch_V157 : stepped (bytesState 0x80000000#32 [0x13#8, 0x00#8, 0x00#8, 0x00#8]
    0x90000000#32) = some (raise (.unmappedAddress 0x90000000#32 .fetch) (bytesState 0x80000000#32
    [0x13#8, 0x00#8, 0x00#8, 0x00#8] 0x90000000#32)) := by decide
theorem test_fetch_V161 : regAfter 0#5 (bytesState 0x80000000#32 [0x00#8, 0x13#8, 0x00#8, 0x00#8,
    0x00#8, 0x6F#8] 0x80000001#32) = some (0x00000000#32, 0x80000005#32) := by decide

/-! ## A placed word runs next (log 2, 9) -/

theorem test_withFetchWord_from_reset :
    (stepped (State.reset.withFetchWord 32 0x123452B7)).map (fun t => (readReg 5#5 t, t.pc)) =
      some (0x12345000#32, 0x80000004#32) := by decide
theorem test_withFetchWord_at_the_top :
    pcAfter ({ State.reset with pc := 0xFFFFFFFE#32 }.withFetchWord 32 0x0000000F) =
      some 0x80000004#32 := by decide

/-! ## Witnesses: for every statement with hypotheses, a state and operands that meet them; for a
statement of several clauses, one for each clause, at the bounds of its range -/

theorem witness_DecodeOfEncode : wellFormed (.lui 31#5 0xFFFFF000#32) = true ∧
    wellFormed (.jal 31#5 1048574#32) = true ∧ wellFormed (.jal 0#5 (-1048576#32)) = true ∧
    wellFormed (.jalr 1#5 1#5 (-2048#32)) = true ∧ wellFormed (.bgeu 1#5 2#5 4094#32) = true ∧
    wellFormed (.beq 1#5 2#5 (-4096#32)) = true ∧ wellFormed (.lhu 1#5 2#5 2047#32) = true ∧
    wellFormed (.sb 1#5 2#5 (-2048#32)) = true ∧ wellFormed (.andi 1#5 2#5 2047#32) = true := by decide
theorem witness_EncodeOfDecode : decodeWord 0x8000006F#32 = some (.jal 0#5 (-1048576#32)) ∧
    decodeWord 0x80002023#32 = some (.sw 0#5 0#5 (-2048#32)) := by decide
theorem witness_DecodeOfEncodedBytes : wellFormed (.sw 0#5 0#5 (-2048#32)) = true := by decide
theorem witness_ImmediatesRoundTrip :
    (-2048 ≤ (0xFFFFF800#32).toInt ∧ (0xFFFFF800#32).toInt ≤ 2047) ∧
    (-2048 ≤ (0x7FF#32).toInt ∧ (0x7FF#32).toInt ≤ 2047) ∧
    (-4096 ≤ (0xFFFFF000#32).toInt ∧ (0xFFFFF000#32).toInt ≤ 4094 ∧ (0xFFFFF000#32).toInt % 2 = 0) ∧
    (-4096 ≤ (0xFFE#32).toInt ∧ (0xFFE#32).toInt ≤ 4094 ∧ (0xFFE#32).toInt % 2 = 0) ∧
    (0xFFFFF000#32).toNat % 4096 = 0 ∧
    (-1048576 ≤ (0xFFF00000#32).toInt ∧ (0xFFF00000#32).toInt ≤ 1048574 ∧
      (0xFFF00000#32).toInt % 2 = 0) ∧
    (-1048576 ≤ (0xFFFFE#32).toInt ∧ (0xFFFFE#32).toInt ≤ 1048574 ∧ (0xFFFFE#32).toInt % 2 = 0) := by
  decide

/-- A 16-bit parcel in the last two bytes of a region (V154). -/
def parcelState : State := bytesState 0x80000000#32 [0x05#8, 0x45#8] 0x80000000#32

/-- A word of no instruction (V155). -/
def illegalState : State :=
  bytesState 0x80000000#32 [0xFF#8, 0xFF#8, 0xFF#8, 0xFF#8] 0x80000000#32

/-- A PC outside every region (V157). -/
def unmappedState : State :=
  bytesState 0x80000000#32 [0x13#8, 0x00#8, 0x00#8, 0x00#8] 0x90000000#32

/-- The first byte of a 32-bit instruction with its span cut off by the end of the region (V156). -/
def cutState : State := bytesState 0x80000000#32 [0x13#8, 0x00#8] 0x80000000#32

/-- The first byte of a parcel with its second byte cut off. -/
def cutParcelState : State := bytesState 0x80000000#32 [0x01#8] 0x80000000#32

theorem witness_IllegalEncodingsRaise_parcel : parcelState.status = .running ∧
    parcelState.mem.readHalf parcelState.pc = some 0x4505#16 ∧
    (0x4505#16).extractLsb' 0 2 ≠ 0b11#2 := by decide
theorem witness_IllegalEncodingsRaise_word : illegalState.status = .running ∧
    illegalState.mem.readWord illegalState.pc = some 0xFFFFFFFF#32 ∧
    (0xFFFFFFFF#32).extractLsb' 0 2 = 0b11#2 ∧ decodeWord 0xFFFFFFFF#32 = none := by decide
theorem witness_IllegalEncodingsRaise_opcode : opcodeOf 0x0000000B#32 ∉ [0x37#7, 0x17#7, 0x6F#7,
    0x67#7, 0x63#7, 0x03#7, 0x23#7, 0x13#7, 0x33#7, 0x0F#7, 0x73#7] := by decide
theorem witness_IllegalEncodingsRaise_fields :
    (opcodeOf 0x00033283#32 = 0x03#7 ∧ funct3Of 0x00033283#32 ∈ [0b011#3, 0b110#3, 0b111#3]) ∧
    (opcodeOf 0x00533023#32 = 0x23#7 ∧
      funct3Of 0x00533023#32 ∈ [0b011#3, 0b100#3, 0b101#3, 0b110#3, 0b111#3]) ∧
    (opcodeOf 0x0020A463#32 = 0x63#7 ∧ funct3Of 0x0020A463#32 ∈ [0b010#3, 0b011#3]) ∧
    (opcodeOf 0x000290E7#32 = 0x67#7 ∧ funct3Of 0x000290E7#32 ≠ 0b000#3) ∧
    (opcodeOf 0x0000100F#32 = 0x0F#7 ∧ funct3Of 0x0000100F#32 ≠ 0b000#3) ∧
    (opcodeOf 0x02009113#32 = 0x13#7 ∧ funct3Of 0x02009113#32 = 0b001#3 ∧
      funct7Of 0x02009113#32 ≠ 0b0000000#7) ∧
    (opcodeOf 0x6040D113#32 = 0x13#7 ∧ funct3Of 0x6040D113#32 = 0b101#3 ∧
      funct7Of 0x6040D113#32 ≠ 0b0000000#7 ∧ funct7Of 0x6040D113#32 ≠ 0b0100000#7) ∧
    (opcodeOf 0x402091B3#32 = 0x33#7 ∧ funct7Of 0x402091B3#32 ≠ 0b0000000#7 ∧
      ¬ (funct7Of 0x402091B3#32 = 0b0100000#7 ∧ funct3Of 0x402091B3#32 ∈ [0b000#3, 0b101#3])) ∧
    (opcodeOf 0x30034073#32 = 0x73#7 ∧ funct3Of 0x30034073#32 = 0b100#3) ∧
    (opcodeOf 0x000000F3#32 = 0x73#7 ∧ funct3Of 0x000000F3#32 = 0b000#3 ∧
      0x000000F3#32 ∉ [0x00000073#32, 0x00100073#32, 0x30200073#32]) := by decide
theorem witness_OutOfScopeWordsAreIllegal :
    (opcodeOf 0x0000100F#32 = 0x0F#7 ∧ funct3Of 0x0000100F#32 = 0b001#3) ∧
    0x10500073#32 ∈ [0x10500073#32, 0x10200073#32, 0x00200073#32] ∧
    (opcodeOf 0x12000073#32 = 0x73#7 ∧ funct3Of 0x12000073#32 = 0b000#3 ∧
      funct7Of 0x12000073#32 = 0b0001001#7) ∧
    (opcodeOf 0x022081B3#32 = 0x33#7 ∧ funct7Of 0x022081B3#32 = 0b0000001#7) ∧
    opcodeOf 0x0000202F#32 ∈ [0x2F#7, 0x07#7, 0x27#7, 0x43#7, 0x47#7, 0x4B#7, 0x4F#7, 0x53#7, 0x1B#7,
      0x3B#7] := by decide
theorem witness_AluShifts : (0 : Nat) < 32 ∧ (31 : Nat) < 32 := by decide
theorem witness_RegisterReadWrite : (31#5 : Reg) ≠ 0#5 ∧ (0#5 : Reg) ≠ 31#5 := by decide
theorem witness_X0MaskedAtEndOfStep :
    ∃ t, step (vectorState 0x80000000#32 0x00508013#32 [(1#5, 7#32)] []) = .next t ∧
      t.status = .running := exists_next (by decide)

/-- The state of the loads and stores: x5 and x6 of the vectors. -/
def dataState (w base : Word) : State :=
  vectorState 0x80000000#32 w [(5#5, 0xAABBCCDD#32), (6#5, base)] []

theorem witness_ReadsAreLittleEndian :
    (dataState 0#32 0#32).mem.readHalf 0x80001006#32 = some 0x8000#16 ∧
    (dataState 0#32 0#32).mem.readWord 0x80001004#32 = some 0x8000FFF0#32 := by decide
theorem witness_WritesSetTheirBytes :
    (dataState 0#32 0#32).mem.covered 0x80001007#32 1 = true ∧
    (dataState 0#32 0#32).mem.covered 0x80001006#32 2 = true ∧
    (dataState 0#32 0#32).mem.covered 0x80001004#32 4 = true ∧
    (dataState 0#32 0#32).mem.covered 0x80001008#32 1 = false ∧
    (dataState 0#32 0#32).mem.covered 0x80001007#32 2 = false ∧
    (dataState 0#32 0#32).mem.covered 0x80001005#32 4 = false := by decide
theorem witness_WritesSetTheirBytes_widths :
    (1, Memory.writeByte) ∈ [(1, Memory.writeByte), (2, Memory.writeHalf), (4, Memory.writeWord)] ∧
    (2, Memory.writeHalf) ∈ [(1, Memory.writeByte), (2, Memory.writeHalf), (4, Memory.writeWord)] ∧
    (4, Memory.writeWord) ∈ [(1, Memory.writeByte), (2, Memory.writeHalf), (4, Memory.writeWord)] := by
  simp
theorem witness_MixedWidthReadBack :
    ((dataState 0#32 0#32).mem.writeWord 0x80001004#32 0xAABBCCDD#32).isSome = true := by decide
theorem witness_StoreIsFetchedNext :
    let s := vectorState 0x80000000#32 0x00532023#32
      [(5#5, 0x00100513#32), (6#5, 0x80000004#32)] []
    s.status = .running ∧ wellFormed (.addi 10#5 0#5 1#32) = true ∧
      readReg 5#5 s = encode (.addi 10#5 0#5 1#32) ∧ readReg 6#5 s + 0#32 = s.pc + 4#32 ∧
      s.mem.readWord (s.pc + 4#32) ≠ none ∧ (nextOf (exec (.sw 5#5 6#5 0#32) s)).isSome = true := by
  decide

theorem witness_OpImmResults : (opcodeOf 0xFFF08113#32 = 0b0010011#7 ∧
      funct3Of 0xFFF08113#32 = 0b000#3) ∧
    (opcodeOf 0xFFF0A113#32 = 0b0010011#7 ∧ funct3Of 0xFFF0A113#32 = 0b010#3) ∧
    (opcodeOf 0xFFF0B113#32 = 0b0010011#7 ∧ funct3Of 0xFFF0B113#32 = 0b011#3) ∧
    (opcodeOf 0xFFF0C113#32 = 0b0010011#7 ∧ funct3Of 0xFFF0C113#32 = 0b100#3) ∧
    (opcodeOf 0x8000E113#32 = 0b0010011#7 ∧ funct3Of 0x8000E113#32 = 0b110#3) ∧
    (opcodeOf 0x7FF0F113#32 = 0b0010011#7 ∧ funct3Of 0x7FF0F113#32 = 0b111#3) ∧
    (opcodeOf 0x01F09113#32 = 0b0010011#7 ∧ funct3Of 0x01F09113#32 = 0b001#3 ∧
      funct7Of 0x01F09113#32 = 0b0000000#7) ∧
    (opcodeOf 0x01F0D113#32 = 0b0010011#7 ∧ funct3Of 0x01F0D113#32 = 0b101#3 ∧
      funct7Of 0x01F0D113#32 = 0b0000000#7) ∧
    (opcodeOf 0x41F0D113#32 = 0b0010011#7 ∧ funct3Of 0x41F0D113#32 = 0b101#3 ∧
      funct7Of 0x41F0D113#32 = 0b0100000#7) ∧
    (opcodeOf 0x02009113#32 = 0b0010011#7 ∧ funct3Of 0x02009113#32 = 0b001#3 ∧
      funct7Of 0x02009113#32 ≠ 0b0000000#7) ∧
    (opcodeOf 0x6040D113#32 = 0b0010011#7 ∧ funct3Of 0x6040D113#32 = 0b101#3 ∧
      funct7Of 0x6040D113#32 ≠ 0b0000000#7 ∧ funct7Of 0x6040D113#32 ≠ 0b0100000#7) := by decide
theorem witness_OpResults :
    [0x002081B3#32, 0x002091B3#32, 0x0020A1B3#32, 0x0020B1B3#32, 0x0020C1B3#32, 0x0020D1B3#32,
      0x0020E1B3#32, 0x0020F1B3#32].map
      (fun w => (opcodeOf w, funct7Of w, funct3Of w)) =
      [(0x33#7, 0#7, 0#3), (0x33#7, 0#7, 1#3), (0x33#7, 0#7, 2#3), (0x33#7, 0#7, 3#3), (0x33#7,
      0#7, 4#3), (0x33#7, 0#7, 5#3), (0x33#7, 0#7, 6#3), (0x33#7, 0#7, 7#3)] ∧
    [0x402081B3#32, 0x4020D1B3#32].map (fun w => (opcodeOf w, funct7Of w, funct3Of w)) =
      [(0x33#7, 0b0100000#7, 0b000#3), (0x33#7, 0b0100000#7, 0b101#3)] := by decide
theorem witness_UpperImmediateResults : opcodeOf 0xFFFFF2B7#32 = 0b0110111#7 ∧
    opcodeOf 0x80000297#32 = 0b0010111#7 := by decide
theorem witness_JalResult : opcodeOf 0x8000006F#32 = 0b1101111#7 := by decide
theorem witness_JalrResult :
    (opcodeOf 0x004280E7#32 = 0b1100111#7 ∧ funct3Of 0x004280E7#32 = 0b000#3) ∧
    (opcodeOf 0x000290E7#32 = 0b1100111#7 ∧ funct3Of 0x000290E7#32 ≠ 0b000#3) ∧
    State.reset.params.jalrClearsBit0 = false ∧
    (State.start [] 0#32 ⟨true, .reference⟩).params.jalrClearsBit0 = true := by decide
theorem witness_BranchResults :
    [0x80000063#32, 0x7E209FE3#32, 0x0020C463#32, 0x0020D463#32, 0x0020E463#32,
      0x0020F463#32].map (fun w => (opcodeOf w, funct3Of w)) =
      [(0x63#7, 0#3), (0x63#7, 1#3), (0x63#7, 4#3), (0x63#7, 5#3), (0x63#7, 6#3), (0x63#7,
      7#3)] := by decide
theorem witness_LoadResults_words :
    [0x00430283#32, 0x00631283#32, 0x00032283#32, 0x00434283#32,
      0x00635283#32].map (fun w => (opcodeOf w, funct3Of w)) =
      [(0x03#7, 0#3), (0x03#7, 1#3), (0x03#7, 2#3), (0x03#7, 4#3), (0x03#7, 5#3)] := by decide
theorem witness_LoadResults_mapped :
    let s := dataState 0#32 0x80001000#32
    s.mem.readByte (readReg 6#5 s + 7#32) = some 0x80#8 ∧
      s.mem.readHalf (readReg 6#5 s + 6#32) = some 0x8000#16 ∧
      s.mem.readWord (readReg 6#5 s + 4#32) = some 0x8000FFF0#32 := by decide
theorem witness_LoadResults_unmapped :
    let s := dataState 0#32 0x80001000#32
    s.mem.readByte (readReg 6#5 s + 8#32) = none ∧ s.mem.readHalf (readReg 6#5 s + 7#32) = none ∧
      s.mem.readWord (readReg 6#5 s + 5#32) = none := by decide
theorem witness_StoreResults_words :
    [0x005300A3#32, 0x00531123#32, 0xFE532E23#32].map (fun w => (opcodeOf w, funct3Of w)) =
      [(0x23#7, 0#3), (0x23#7, 1#3), (0x23#7, 2#3)] := by decide
theorem witness_StoreResults_mapped :
    let s := dataState 0#32 0x80001000#32
    s.mem.readByte (readReg 6#5 s + 7#32) ≠ none ∧ s.mem.readHalf (readReg 6#5 s + 6#32) ≠ none ∧
      s.mem.readWord (readReg 6#5 s + 4#32) ≠ none := by decide
theorem witness_StoreResults_unmapped :
    let s := dataState 0#32 0x80001000#32
    s.mem.readByte (readReg 6#5 s + 8#32) = none ∧ s.mem.readHalf (readReg 6#5 s + 7#32) = none ∧
      s.mem.readWord (readReg 6#5 s + 5#32) = none := by decide
theorem witness_FenceIsNoOp :
    (opcodeOf 0x8330000F#32 = 0b0001111#7 ∧ funct3Of 0x8330000F#32 = 0b000#3) ∧
    (opcodeOf 0x0000100F#32 = 0b0001111#7 ∧ funct3Of 0x0000100F#32 ≠ 0b000#3) := by decide
theorem witness_CsrResults :
    [0x340312F3#32, 0x300322F3#32, 0x300332F3#32, 0x341FD2F3#32, 0x300462F3#32,
      0x3000F2F3#32].map (fun w => (opcodeOf w, funct3Of w)) =
      [(0x73#7, 1#3), (0x73#7, 2#3), (0x73#7, 3#3), (0x73#7, 5#3), (0x73#7, 6#3), (0x73#7,
      7#3)] := by decide

/-- A state that meets the invariant with a register, the first and the last CSR, and memory set. -/
def invState : State :=
  vectorState 0x80000000#32 0x30006073#32 [(6#5, 7#32)] [(0x000#12, 7#32), (0xFFF#12, 0xCAFE#32)]

theorem witness_SuppressedCsrAccessUnobservable : invState.Inv := by decide
theorem witness_EcallResult_words : opcodeOf 0x000000F3#32 = 0b1110011#7 ∧
    funct3Of 0x000000F3#32 = 0b000#3 ∧
    0x000000F3#32 ∉ [0x00000073#32, 0x00100073#32, 0x30200073#32] := by decide
theorem witness_EcallResult_reference :
    let s := vectorState 0x80000000#32 0x00000073#32 [(17#5, 93#32), (10#5, 7#32)] []
    let u := vectorState 0x80000000#32 0x00000073#32 [(17#5, 94#32)] []
    s.params.ecallHandler = .reference ∧ readReg 17#5 s = 93#32 ∧
      u.params.ecallHandler = .reference ∧ readReg 17#5 u ≠ 93#32 := by decide
theorem witness_EcallResult_other :
    (State.start [] 0#32 ⟨false, .other⟩).params.ecallHandler = .other := by decide
theorem witness_X0DestinationOnlyMovesPc :
    let s := vectorState 0x80000000#32 0x00508013#32 [(1#5, 7#32)] []
    destOf (.addi 0#5 1#5 5#32) = some 0#5 ∧ csrTargetOf (.addi 0#5 1#5 5#32) = none ∧
      ∃ t, exec (.addi 0#5 1#5 5#32) s = .next t ∧ t.status = s.status :=
  ⟨rfl, rfl, exists_next (by decide)⟩
theorem witness_StepRunsDecoded :
    invState.status = .running ∧ invState.mem.readWord invState.pc = some 0x30006073#32 ∧
      decodeWord 0x30006073#32 = some (.csrrsi 0#5 0x300#12 0#5) := by decide
theorem witness_NoStepWhenEnded : (halt 7#32 State.reset).status = .halted 7#32 ∧
    (raise .unhandledEnvironmentCall State.reset).status =
      .faulted .unhandledEnvironmentCall := by decide
theorem witness_RunningStepCompletes : State.reset.status = .running := by decide
theorem witness_FaultPriority_fetch : unmappedState.status = .running ∧
    unmappedState.mem.readByte unmappedState.pc = none := by decide
theorem witness_FaultPriority_parcel :
    (parcelState.status = .running ∧ parcelState.mem.readByte parcelState.pc = some 0x05#8 ∧
      instrLength 0x05#8 = 2 ∧ parcelState.mem.readHalf parcelState.pc = some 0x4505#16) ∧
    (cutParcelState.mem.readByte cutParcelState.pc = some 0x01#8 ∧ instrLength 0x01#8 = 2 ∧
      cutParcelState.mem.readHalf cutParcelState.pc = none) := by decide
theorem witness_FaultPriority_word :
    (cutState.mem.readByte cutState.pc = some 0x13#8 ∧ instrLength 0x13#8 = 4 ∧
      cutState.mem.readWord cutState.pc = none) ∧
    (illegalState.mem.readByte illegalState.pc = some 0xFF#8 ∧ instrLength 0xFF#8 = 4 ∧
      illegalState.mem.readWord illegalState.pc = some 0xFFFFFFFF#32 ∧
      decodeWord 0xFFFFFFFF#32 = none) ∧
    (invState.mem.readByte invState.pc = some 0x73#8 ∧ instrLength 0x73#8 = 4 ∧
      invState.mem.readWord invState.pc = some 0x30006073#32 ∧
      decodeWord 0x30006073#32 = some (.csrrsi 0#5 0x300#12 0#5)) := by decide
theorem witness_FaultPriority_own :
    let s := dataState 0x00532283#32 0x80001000#32
    s.status = .running ∧ (∃ t, exec (.lw 5#5 6#5 5#32) s = .next t ∧
        t.status = .faulted (.unmappedAddress 0x80001005#32 .load)) ∧
      (∃ t, exec .ecall s = .next t ∧ t.status = .faulted .unhandledEnvironmentCall) :=
  ⟨rfl, exists_next (by decide), exists_next (by decide)⟩
theorem witness_FetchAndLength :
    ((0x13#8).extractLsb' 0 2 = 0b11#2 ∧ (0x01#8).extractLsb' 0 2 ≠ 0b11#2) ∧
    (0x0000001F#32).extractLsb' 0 5 = 0b11111#5 ∧
    unmappedState.mem.readByte unmappedState.pc = none ∧
    (cutState.mem.readByte cutState.pc = some 0x13#8 ∧
      cutState.mem.covered cutState.pc (instrLength 0x13#8) = false) ∧
    (parcelState.mem.readByte parcelState.pc = some 0x05#8 ∧ instrLength 0x05#8 = 2 ∧
      parcelState.mem.readHalf parcelState.pc = some 0x4505#16) ∧
    (illegalState.mem.readByte illegalState.pc = some 0xFF#8 ∧ instrLength 0xFF#8 = 4 ∧
      illegalState.mem.readWord illegalState.pc = some 0xFFFFFFFF#32) ∧
    (cutState.status = .running ∧ fetchBytes cutState.pc cutState.mem = none) := by decide
theorem witness_FaultsArePrecise : ∃ t, step (dataState 0x00532323#32 0x80001000#32) = .next t ∧
    t.status = .faulted (.unmappedAddress 0x80001006#32 .store) := exists_next (by decide)
theorem witness_FaultOrigins_fetch : ∃ t, step cutState = .next t ∧
    t.status = .faulted (.unmappedAddress 0x80000000#32 .fetch) := exists_next (by decide)
theorem witness_FaultOrigins_parcel : ∃ t, step parcelState = .next t ∧
    t.status = .faulted (.illegalInstruction 0x80000000#32 0x00004505#32) := exists_next (by decide)
theorem witness_FaultOrigins_ebreak :
    ∃ t, step (vectorState 0x80000020#32 0x00100073#32 [] []) = .next t ∧
      t.status = .faulted (.illegalInstruction 0x80000020#32 0x00100073#32) :=
  exists_next (by decide)
theorem witness_FaultOrigins_load : ∃ t, step (dataState 0x00532283#32 0x80001000#32) = .next t ∧
    t.status = .faulted (.unmappedAddress 0x80001005#32 .load) := exists_next (by decide)
theorem witness_FaultOrigins_store : ∃ t, step (dataState 0x005313A3#32 0x80001000#32) = .next t ∧
    t.status = .faulted (.unmappedAddress 0x80001007#32 .store) := exists_next (by decide)
theorem witness_FaultOrigins_word : ∃ t, step illegalState = .next t ∧
    t.status = .faulted (.illegalInstruction 0x80000000#32 0xFFFFFFFF#32) := exists_next (by decide)
theorem witness_FaultOrigins_ecall :
    ∃ t, step (vectorState 0x80000000#32 0x00000073#32 [] []) = .next t ∧
      t.status = .faulted .unhandledEnvironmentCall := exists_next (by decide)
theorem witness_HaltOnlyByEcall :
    ∃ t, step (vectorState 0x80000000#32 0x00000073#32 [(17#5, 93#32)] []) = .next t ∧
      t.status = .halted 0#32 := exists_next (by decide)
theorem witness_NoTrapEntry_fault : ∃ t, step illegalState = .next t ∧
    t.status = .faulted (.illegalInstruction 0x80000000#32 0xFFFFFFFF#32) := exists_next (by decide)
theorem witness_NoTrapEntry_ecall :
    let s := vectorState 0x80000000#32 0x00000073#32 [(17#5, 93#32)] []
    (∃ t, step s = .next t ∧ t.pc = s.pc) ∧ fetchDecode s.pc s.mem = .instr .ecall :=
  ⟨exists_next (by decide), by decide⟩
theorem witness_NextPcTable :
    let s := vectorState 0x80000000#32 0x80000063#32 [] []
    s.status = .running ∧
      (∃ t, exec (.beq 0#5 0#5 (-4096#32)) s = .next t ∧ t.status = .running) ∧
      (∃ t, exec .ebreak s = .next t ∧ t.status ≠ .running) :=
  ⟨rfl, exists_next (by decide), exists_next (by decide)⟩
theorem witness_OnlyDestinationChanges :
    let s := dataState 0x00032303#32 0x80001000#32
    ∃ t, step s = .next t ∧ readReg 6#5 t ≠ readReg 6#5 s := exists_next (by decide)
theorem witness_OnlyNamedCsrChanges :
    let s := vectorState 0x80000000#32 0x34131073#32 [(6#5, 0x80000040#32)] []
    ∃ t, step s = .next t ∧ csrRead 0x341#12 t.csrs ≠ csrRead 0x341#12 s.csrs :=
  exists_next (by decide)
theorem witness_OnlyStoredBytesChange :
    let s := dataState 0x00532223#32 0x80001000#32
    ∃ t, step s = .next t ∧ t.mem.readByte 0x80001007#32 ≠ s.mem.readByte 0x80001007#32 :=
  exists_next (by decide)
theorem witness_RegionsAndParametersFixed :
    ∃ t, step (dataState 0x00532223#32 0x80001000#32) = .next t ∧ t.status = .running :=
  exists_next (by decide)
theorem witness_SelfJumpNeverEnds :
    let s := vectorState 0x80000000#32 0x0000006F#32 [(1#5, 7#32)] []
    s.Inv ∧ s.status = .running ∧ s.mem.readWord s.pc = some 0x0000006F#32 := by decide
theorem witness_InvariantKept : invState.Inv ∧ ∃ t, step invState = .next t ∧ t.status = .running :=
  ⟨by decide, exists_next (by decide)⟩
theorem witness_StartMeetsInvariant : imageWf [{ base := 0, bytes := [0x13#8] }, testData,
    { base := 0xFFFFFFFF, bytes := [0#8] }] = true := by decide
theorem witness_StartState : imageWf [testData] = true ∧ testData ∈ [testData] ∧
    0 < testData.bytes.length ∧ 7 < testData.bytes.length := by decide
theorem witness_UnmappedResetPcFaults : ∀ r ∈ [testData],
    ¬ (r.base ≤ (0x80001008#32).toNat ∧ (0x80001008#32).toNat < r.base + r.bytes.length) := by decide
theorem witness_PlacedWordRunsNext : invState.Inv ∧ State.reset.Inv ∧
    wellFormed (.csrrwi 31#5 0xFFF#12 31#5) = true := by decide
end

section
/-! PROOFS. Scope: a run starts in a state that meets the invariant. -/

namespace Sys2Proof.Machine

/-- The memory of a well-formed image is in canonical form. -/
theorem Memory.wf_ofImage {image : List ImageRegion} (h : imageWf image = true) :
    (Memory.ofImage image).wf = true := by
  have cells : Sparse.wf unlistedByte (Memory.ofImage image).cells = true := Memory.wf_layImage rfl
  exact Memory.wf_iff.2 ⟨h, cells, cellsMapped_ofImage image⟩

/-- Settles O55: every register starts at 0, the CSR store starts empty, and the memory is that of a
well-formed image (R290). -/
theorem startMeetsInvariant : Obligations.StartMeetsInvariant := by
  intro image resetPc params hwf
  have x0 : (State.start image resetPc params).regs[0] = 0#32 := by simp
  have mem : (State.start image resetPc params).mem.wf = true := Memory.wf_ofImage hwf
  exact ⟨x0, rfl, rfl, mem⟩

end Sys2Proof.Machine
end

section
/-! PROOFS. The state: the named operations over registers and the CSR store, what one step changes
and leaves unchanged, and the invariant every step keeps. -/

namespace Sys2Proof.Machine

variable {i : Instr} {s t : State}

/-! ## What a step can do -/

/-- Every next state of a step: the front raised a fault, or the instruction at the PC was performed
and left one of the shapes of `exec`. -/
theorem step_shape (h : step s = .next t) :
    (∃ reason, t = raise reason s) ∨
      ∃ i, fetchDecode s.pc s.mem = .instr i ∧ ExecShape i s t := by
  obtain ⟨-, ⟨reason, -, ht⟩ | ⟨i, hf, he⟩⟩ := step_cases h
  · exact .inl ⟨reason, ht⟩
  · exact .inr ⟨i, hf, exec_shape he⟩

/-- A step that changes what a view of the state gives, where no fault changes it, performed the
instruction at the PC. -/
theorem step_changes {α : Type} {view : State → α} (h : step s = .next t)
    (hraise : ∀ reason, view (raise reason s) = view s) (hne : view t ≠ view s) :
    ∃ i, fetchDecode s.pc s.mem = .instr i ∧ ExecShape i s t := by
  obtain ⟨reason, rfl⟩ | hi := step_shape h
  · exact absurd (hraise reason) hne
  · exact hi

/-- A store names no destination. -/
theorem destOf_of_storeSpan {span : Word × Nat} (h : storeSpan i s = some span) :
    destOf i = none := by
  cases i with
  | sb _ _ _ | sh _ _ _ | sw _ _ _ => rfl
  | _ => cases h

/-! ## The invariant -/

/-- A completed instruction meets the invariant if the CSR store and the memory it leaves do. -/
theorem Inv_of_retire {target : Word} (hcsrs : Sparse.wf 0#32 s.csrs = true)
    (hidx : s.csrs.all (fun c => decide (c.1 < 4096)) = true) (hmem : s.mem.wf = true) :
    (retire target s).Inv := ⟨retire_x0 target s, hcsrs, hidx, hmem⟩

/-- Every shape of a next state keeps the invariant. -/
theorem ExecShape.inv (h : ExecShape i s t) (hs : s.Inv) : t.Inv := by
  have ⟨_, hcsrs, hidx, hmem⟩ := hs
  cases h with
  | wrote rd v target hd ht => exact ht ▸ Inv_of_retire hcsrs hidx hmem
  | moved target ht => exact ht ▸ Inv_of_retire hcsrs hidx hmem
  | csr rd c x hd hc ht =>
    exact ht ▸ Inv_of_retire (csrWrite_wf hcsrs c x) (csrWrite_indices hidx c x) hmem
  | stored a bytes m hspan hw ht =>
    exact ht ▸ Inv_of_retire hcsrs hidx (Memory.wf_writeBytes hmem hw)
  | halted code hi ht => exact ht ▸ ⟨halt_x0 s code, hcsrs, hidx, hmem⟩
  | raised reason ht => exact ht ▸ Inv_of_raise hs

/-- Settles O53: a fault changes the run status only, and every shape of a performed instruction
keeps the canonical forms and masks x0. -/
theorem invariantKept : Obligations.InvariantKept := by
  intro s t hs h
  obtain ⟨reason, rfl⟩ | ⟨i, -, hshape⟩ := step_shape h
  · exact Inv_of_raise hs
  · exact hshape.inv hs

/-! ## Registers and the CSR store -/

/-- An instruction that does not fault leaves 0 in x0, whatever x0 held. -/
theorem ExecShape.x0 (h : ExecShape i s t) (hok : ∀ reason, t.status ≠ .faulted reason) :
    t.regs[0] = 0#32 := by
  cases h with
  | wrote rd v target hd ht => exact ht ▸ retire_x0 target _
  | moved target ht => exact ht ▸ retire_x0 target s
  | csr rd c x hd hc ht => exact ht ▸ retireCsr_x0 rd s _
  | stored a bytes m hspan hw ht => exact ht ▸ retire_x0 _ _
  | halted code hi ht => exact ht ▸ halt_x0 s code
  | raised reason ht => exact absurd (ht ▸ raise_status reason s) (hok reason)

/-- Settles O18: every end of a step but a fault masks x0, and x0 reads 0 masked or not (R23). -/
theorem x0MaskedAtEndOfStep : Obligations.X0MaskedAtEndOfStep := by
  refine ⟨fun s t h hok => ?_, readReg_maskX0⟩
  obtain ⟨reason, rfl⟩ | ⟨i, -, hshape⟩ := step_shape h
  · exact absurd (raise_status reason s) (hok reason)
  · exact hshape.x0 hok

/-- Settles O37: a write to x0 leaves every register reading as before, and the shapes that write a
CSR or memory or halt belong to instructions without such a destination. -/
theorem x0DestinationOnlyMovesPc : Obligations.X0DestinationOnlyMovesPc := by
  intro i s t hdest hcsr h hstatus
  cases exec_shape h with
  | wrote rd v target hd ht =>
    obtain rfl : rd = 0#5 := Option.some.inj (hd.symm.trans hdest)
    subst ht
    exact ⟨fun r => by simp [readReg_writeReg], rfl, rfl, rfl, rfl, rfl⟩
  | moved target ht => exact ht ▸ moved_retire target
  | csr rd c x hd hc ht => cases hc.symm.trans hcsr
  | stored a bytes m hspan hw ht => cases (destOf_of_storeSpan hspan).symm.trans hdest
  | halted code hi ht => subst hi; cases hdest
  | raised reason ht =>
    subst ht
    exact ⟨fun r => rfl, rfl, rfl, hstatus, rfl, rfl⟩

/-- Settles O16: a read after a write of the store, at the three values the operations write. -/
theorem csrStoreOperations : Obligations.CsrStoreOperations := by
  intro idx j v store
  exact ⟨csrRead_nil idx, rfl, csrRead_csrWrite j idx _ store, rfl, csrRead_csrWrite j idx _ store,
    rfl, csrRead_csrWrite j idx _ store⟩

/-- At the start of a run every register reads 0. -/
theorem readReg_start (r : Reg) (image : List ImageRegion) (resetPc : Word) (params : Params) :
    readReg r (State.start image resetPc params) = 0#32 := by
  simp [readReg]

/-- Settles O17: the read after a write, and the register file a run starts with. -/
theorem registerReadWrite : Obligations.RegisterReadWrite := by
  refine ⟨readReg_start, fun r q v s => ⟨readReg_zero s, ?_, fun hr => ?_, fun hq => ?_⟩⟩
  · simp [writeReg]
  · rw [readReg_writeReg, if_pos ⟨rfl, hr⟩]
  · rw [readReg_writeReg, if_neg fun h => hq h.1]

/-! ## What a performed instruction leaves unchanged -/

/-- A register that is not the destination, or is x0, reads as before. -/
theorem ExecShape.readReg_eq (h : ExecShape i s t) {r : Reg}
    (hr : ¬ (destOf i = some r ∧ r ≠ 0#5)) : readReg r t = readReg r s := by
  have not_dest {rd : Reg} (hd : destOf i = some rd) : ¬ (r = rd ∧ rd ≠ 0#5) := by
    rintro ⟨rfl, h0⟩
    exact hr ⟨hd, h0⟩
  cases h with
  | wrote rd v target hd ht => rw [ht, readReg_retire, readReg_writeReg, if_neg (not_dest hd)]
  | moved target ht => rw [ht, readReg_retire]
  | csr rd c x hd hc ht => rw [ht, readReg_retireCsr, if_neg (not_dest hd)]
  | stored a bytes m hspan hw ht => rw [ht, readReg_retire]; rfl
  | halted code hi ht => rw [ht, readReg_halt]
  | raised reason ht => rw [ht, readReg_raise]

/-- A CSR that the instruction does not operate on reads as before. -/
theorem ExecShape.csrRead_eq (h : ExecShape i s t) {c : CsrIndex} (hc : csrTargetOf i ≠ some c) :
    csrRead c t.csrs = csrRead c s.csrs := by
  cases h with
  | csr rd c' x hd hc' ht =>
    have hne : c ≠ c' := by
      rintro rfl
      exact hc hc'
    rw [ht, retireCsr_csrs, csrRead_csrWrite, if_neg hne]
  | wrote _ _ _ _ ht | moved _ ht | stored _ _ _ _ _ ht | halted _ _ ht | raised _ ht =>
    rw [ht]; rfl

/-- A write of bytes leaves every byte outside its span. -/
theorem Memory.readByte_writeBytes_other {m m' : Memory} {a b : Word} {bytes : List Byte}
    (hw : m.writeBytes a bytes = some m') (hb : ¬ inSpan a bytes.length b) :
    m'.readByte b = m.readByte b := by
  obtain ⟨-, hnone⟩ | ⟨-, n, hn, hregions, hcell⟩ := Memory.writeBytes_cases (m := m) (a := a)
    (bytes := bytes)
  · cases hnone.symm.trans hw
  · obtain rfl : n = m' := Option.some.inj (hn.symm.trans hw)
    exact Memory.readByte_congr hregions ((hcell _).trans (dif_neg hb))

/-- A byte outside the span of every store the instruction is reads as before. -/
theorem ExecShape.readByte_eq (h : ExecShape i s t) {b : Word}
    (hb : ∀ a n, storeSpan i s = some (a, n) → ¬ inSpan a n b) :
    t.mem.readByte b = s.mem.readByte b := by
  cases h with
  | stored a bytes m hspan hw ht =>
    rw [ht]
    exact Memory.readByte_writeBytes_other hw (hb a _ hspan)
  | wrote _ _ _ _ ht | moved _ ht | csr _ _ _ _ _ ht | halted _ _ ht | raised _ ht =>
    rw [ht]; rfl

/-- Settles O48, by the frame of a performed instruction on registers. -/
theorem onlyDestinationChanges : Obligations.OnlyDestinationChanges := by
  intro s t r h hne
  obtain ⟨i, hf, hshape⟩ := step_changes h (fun reason => readReg_raise r s reason) hne
  exact ⟨i, hf, by_contra fun hr => hne (hshape.readReg_eq hr)⟩

/-- Settles O49, by the frame of a performed instruction on the CSR store. -/
theorem onlyNamedCsrChanges : Obligations.OnlyNamedCsrChanges := by
  intro s t c h hne
  obtain ⟨i, hf, hshape⟩ :=
    step_changes (view := fun u => csrRead c u.csrs) h (fun _ => rfl) hne
  exact ⟨i, hf, by_contra fun hc => hne (hshape.csrRead_eq hc)⟩

/-- Settles O50, by the frame of a performed instruction on memory. -/
theorem onlyStoredBytesChange : Obligations.OnlyStoredBytesChange := by
  intro s t b h hne
  obtain ⟨i, hf, hshape⟩ :=
    step_changes (view := fun u => u.mem.readByte b) h (fun _ => rfl) hne
  by_contra hnone
  refine hne (hshape.readByte_eq fun a n hspan hb => hnone ⟨i, a, n, hf, hspan, hb⟩)

/-! ## Completing a step -/

/-- The end of a load answers a next state. -/
theorem finishLoad_completes (rd : Reg) (a : Word) (value : Option Word) :
    ∃ t, finishLoad rd a value s = .next t := by
  obtain ⟨v, -, h⟩ | ⟨-, h⟩ := finishLoad_cases (s := s) rd a value
  · exact ⟨_, h⟩
  · exact ⟨_, h⟩

/-- The end of a store answers a next state. -/
theorem finishStore_completes (a : Word) (mem : Option Memory) :
    ∃ t, finishStore a mem s = .next t := by
  obtain ⟨m, -, h⟩ | ⟨-, h⟩ := finishStore_cases (s := s) a mem
  · exact ⟨_, h⟩
  · exact ⟨_, h⟩

/-- No instruction is refused, and none stops the model. -/
theorem exec_completes (i : Instr) (s : State) : ∃ t, exec i s = .next t := by
  cases i with
  | lb _ _ _ | lh _ _ _ | lw _ _ _ | lbu _ _ _ | lhu _ _ _ => exact finishLoad_completes _ _ _
  | sb _ _ _ | sh _ _ _ | sw _ _ _ => exact finishStore_completes _ _
  | _ => exact ⟨_, rfl⟩

/-- Settles O41: the front raises a fault, which is a next state, or an instruction is performed. -/
theorem runningStepCompletes : Obligations.RunningStepCompletes := by
  intro s hs
  rw [step_of_running hs]
  cases fetchDecode s.pc s.mem with
  | raises reason => exact ⟨_, rfl⟩
  | instr i => exact exec_completes i s

/-- Settles O40: `stepEnded` answers before the front of the step. -/
theorem noStepWhenEnded : Obligations.NoStepWhenEnded := by
  intro s
  exact ⟨fun code h => by simp [step, stepEnded, h], fun reason h => by simp [step, stepEnded, h]⟩

/-! ## Ending a run -/

/-- An instruction that halts a running state is an ECALL. -/
theorem ExecShape.eq_ecall {code : Word} (h : ExecShape i s t) (hs : s.status = .running)
    (ht : t.status = .halted code) : i = .ecall := by
  cases h with
  | halted _ hi _ => exact hi
  | raised _ ht' =>
    subst ht'
    cases ht
  | wrote _ _ _ _ ht' | moved _ ht' | csr _ _ _ _ _ ht' | stored _ _ _ _ _ ht' =>
    have kept : t.status = s.status := by rw [ht']; rfl
    cases ht.symm.trans (kept.trans hs)

/-- An ECALL that halts a running state was answered Exit with the exit code, and keeps the PC. -/
theorem ecallNext_halted {o : EcallOutcome} {code : Word} (hs : s.status = .running)
    (h : (ecallNext o s).status = .halted code) : o = .exit code ∧ (ecallNext o s).pc = s.pc := by
  obtain ⟨code', ho, hn⟩ | ⟨-, hn⟩ | ⟨-, hn⟩ := ecallNext_cases (s := s) o <;> rw [hn] at h ⊢
  · cases h
    exact ⟨ho, rfl⟩
  · cases hs.symm.trans h
  · cases h

/-- Settles O45: of the shapes of a next state only that of an ECALL answered Exit is halted. -/
theorem haltOnlyByEcall : Obligations.HaltOnlyByEcall := by
  intro s t code h ht
  obtain ⟨hs, ⟨reason, -, rfl⟩ | ⟨i, hf, he⟩⟩ := step_cases h
  · cases ht
  · obtain rfl := (exec_shape he).eq_ecall hs ht
    obtain rfl := next_inj he
    exact ⟨hf, ecallNext_halted hs ht⟩

/-! ## The PC sequencer (R33) -/

/-- From s to t the PC took the target and the run status is as before, or the run ended and the PC
is as before. -/
def Sequenced (target : Word) (s t : State) : Prop :=
  (t.status = s.status ∧ t.pc = target) ∨ (t.status ≠ .running ∧ t.pc = s.pc)

theorem sequenced_load {rd : Reg} {a : Word} {value : Option Word}
    (h : finishLoad rd a value s = .next t) : Sequenced (nextPc s) s t := by
  obtain ⟨v, -, hv⟩ | ⟨-, hv⟩ := finishLoad_cases (s := s) rd a value <;> rw [hv] at h <;>
    obtain rfl := next_inj h
  · exact .inl ⟨rfl, rfl⟩
  · exact .inr ⟨nofun, rfl⟩

theorem sequenced_store {a : Word} {mem : Option Memory}
    (h : finishStore a mem s = .next t) : Sequenced (nextPc s) s t := by
  obtain ⟨m, -, hm⟩ | ⟨-, hm⟩ := finishStore_cases (s := s) a mem <;> rw [hm] at h <;>
    obtain rfl := next_inj h
  · exact .inl ⟨rfl, rfl⟩
  · exact .inr ⟨nofun, rfl⟩

theorem sequenced_ecallNext (o : EcallOutcome) : Sequenced (nextPc s) s (ecallNext o s) := by
  cases o with
  | exit code => exact .inr ⟨nofun, rfl⟩
  | goOn => exact .inl ⟨rfl, rfl⟩
  | unhandled => exact .inr ⟨nofun, rfl⟩

/-- A branch takes its target exactly if its condition, as the comparator decides it, holds. -/
theorem sequenced_branch {cond : Cond} {rs1 rs2 : Reg} {imm : Word} {p : Prop} [Decidable p]
    (hp : cmpCond cond (readReg rs1 s) (readReg rs2 s) = decide p)
    (h : branch cond rs1 rs2 imm s = .next t) :
    Sequenced (if p then s.pc + imm else s.pc + 4#32) s t := by
  obtain rfl := next_inj h
  exact .inl ⟨rfl, by simp [hp, pcRelative, nextPc]⟩

/-- Every instruction is sequenced by its row of the table. -/
theorem exec_sequenced (h : exec i s = .next t) : Sequenced (targetOf i s) s t := by
  cases i with
  | beq _ _ _ | bne _ _ _ | blt _ _ _ | bge _ _ _ | bltu _ _ _ | bgeu _ _ _ =>
    exact sequenced_branch rfl h
  | lb _ _ _ | lh _ _ _ | lw _ _ _ | lbu _ _ _ | lhu _ _ _ => exact sequenced_load h
  | sb _ _ _ | sh _ _ _ | sw _ _ _ => exact sequenced_store h
  | ecall => exact next_inj h ▸ sequenced_ecallNext _
  | ebreak => exact next_inj h ▸ .inr ⟨nofun, rfl⟩
  | _ => exact next_inj h ▸ .inl ⟨rfl, rfl⟩

/-- Settles O47, by the sequencing of every instruction. -/
theorem nextPcTable : Obligations.NextPcTable := by
  intro i s t hs h
  obtain ⟨hstatus, hpc⟩ | ⟨hended, hpc⟩ := exec_sequenced h
  · exact ⟨fun _ => hpc, fun hne => absurd (hstatus.trans hs) hne⟩
  · exact ⟨fun hrun => absurd hrun hended, fun _ => hpc⟩

/-! ## The step and the decoder -/

/-- The byte at the lowest address is the least significant (R65). -/
theorem extractLsb'_wordOfBytes (b0 b1 b2 b3 : Byte) :
    (wordOfBytes b0 b1 b2 b3).extractLsb' 0 8 = b0 := by
  refine BitVec.eq_of_getLsbD_eq fun i hi => ?_
  have hlt : i < 16 ∧ i < 24 := by omega
  simp [wordOfBytes, hi, hlt, show i < 32 by omega]

/-- The first byte of a mapped word is its least significant. -/
theorem Memory.cell_of_readWord {m : Memory} {a w : Word} (h : m.readWord a = some w) :
    m.cell a.toNat = w.extractLsb' 0 8 := by
  unfold Memory.readWord at h
  split at h
  · rw [← Option.some.inj h, extractLsb'_wordOfBytes]
  · cases h

/-- Every opcode the decoder knows ends in 0b11. -/
theorem opcodeOf_of_decodeWord {w : Word} (h : decodeWord w = some i) :
    (opcodeOf w).getLsbD 0 = true ∧ (opcodeOf w).getLsbD 1 = true := by
  by_contra hbits
  have not_known (op : BitVec 7) (hop : op.getLsbD 0 = true ∧ op.getLsbD 1 = true) :
      opcodeOf w ≠ op := by
    rintro rfl
    exact hbits hop
  simp (disch := decide) only [decodeWord, not_known, ↓reduceIte, reduceCtorEq] at h

/-- A word that decodes to an instruction is four bytes long (R91). -/
theorem instrLength_of_decodeWord {w : Word} (h : decodeWord w = some i) :
    instrLength (w.extractLsb' 0 8) = 4 := by
  obtain ⟨h0, h1⟩ := opcodeOf_of_decodeWord h
  apply Laws.instrLength_of_bits
  · simpa [opcodeOf] using h0
  · simpa [opcodeOf] using h1

/-- Settles O39: a decodable word is four bytes long, so the front of the step delivers it whole. -/
theorem stepRunsDecoded : Obligations.StepRunsDecoded := by
  intro s w i hs hw hd
  have hlen : instrLength (s.mem.cell s.pc.toNat) = 4 := by
    rw [Memory.cell_of_readWord hw, instrLength_of_decodeWord hd]
  have hfetch : fetchDecode s.pc s.mem = .instr i := by
    rw [fetchDecode_word hw hlen, hd]
  rw [step_of_running hs, hfetch]

end Sys2Proof.Machine
end

section
/-! PROOFS. The decoder on encoded words: each immediate comes back from its format (R104), and so does
every well-formed instruction. -/

namespace Sys2Proof

/-! ## Immediates -/

/-- The bits of `sext_from(v, b)` (R13), as `simp` spells them. -/
theorem getElem_sextFrom (v : Word) (b : Nat) {i : Nat} (hi : i < 32) :
    (sextFrom v b)[i] = v.getLsbD (min i b) := getLsbD_sextFrom v b hi

/-- Sign extension from bit b looks at the bits up to b only. -/
theorem sextFrom_congr {u v : Word} {b : Nat}
    (h : ∀ i, i < b + 1 → u.getLsbD i = v.getLsbD i) : sextFrom u b = sextFrom v b := by
  refine BitVec.eq_of_getLsbD_eq fun i hi => ?_
  rw [getLsbD_sextFrom u b hi, getLsbD_sextFrom v b hi, h (min i b) (by omega)]

/-- A value in the signed range of b + 1 bits is the sign extension of its low b + 1 bits. -/
theorem sextFrom_eq_self {v : Word} {b : Nat} (hb : b + 1 ≤ 32) (hlo : -(2 : Int) ^ b ≤ v.toInt)
    (hhi : v.toInt < (2 : Int) ^ b) : sextFrom v b = v := by
  apply BitVec.eq_of_toInt_eq
  have hdvd : 2 ^ (b + 1) ∣ 2 ^ 32 := Nat.pow_dvd_pow 2 hb
  have hlow : ((v.toNat : Int)).bmod (2 ^ (b + 1)) = v.toInt.bmod (2 ^ (b + 1)) := by
    rw [BitVec.toInt_eq_toNat_bmod, Int.bmod_bmod_of_dvd hdvd]
  have hpow : ((2 ^ (b + 1) : Nat) : Int) = 2 * 2 ^ b := by push_cast; ring
  rw [sextFrom, ← BitVec.setWidth_eq_extractLsb' hb, BitVec.toInt_signExtend, Nat.min_eq_right hb,
    BitVec.toInt_setWidth, Int.bmod_bmod, hlow]
  apply Int.bmod_eq_of_le <;> omega

/-- Sign extension from bit b of the collected bits gives the immediate in range that has those bits. -/
theorem sextFrom_eq_of_bits {v imm : Word} {b : Nat} (hb : b + 1 ≤ 32)
    (hlo : -(2 : Int) ^ b ≤ imm.toInt) (hhi : imm.toInt < (2 : Int) ^ b)
    (h : ∀ i, i < b + 1 → v.getLsbD i = imm.getLsbD i) : sextFrom v b = imm :=
  (sextFrom_congr h).trans (sextFrom_eq_self hb hlo hhi)

/-- A multiple of 2^n has no bit below bit n. -/
theorem getLsbD_of_toNat_mod {v : Word} {n i : Nat} (h : v.toNat % 2 ^ n = 0) (hi : i < n) :
    v.getLsbD i = false := by
  have hbit : (v.toNat % 2 ^ n).testBit i = v.toNat.testBit i := by simp [Nat.testBit_mod_two_pow, hi]
  rw [BitVec.getLsbD, ← hbit, h, Nat.zero_testBit]

/-- An even value has bit 0 clear. -/
theorem getLsbD_zero_of_even {v : Word} (h : v.toInt % 2 = 0) : v.getLsbD 0 = false := by
  have hmod : v.toNat % 2 ^ 1 = 0 := by
    have := BitVec.toInt_eq_toNat_cond v
    omega
  exact getLsbD_of_toNat_mod hmod (by decide)

theorem immI_iFormat {imm : Word} (h : fitsI imm = true) (rs1 : Reg) (f3 : BitVec 3) (rd : Reg)
    (op : BitVec 7) : immI (iFormat (field12 imm) rs1 f3 rd op) = imm := by
  obtain ⟨hlo, hhi⟩ := of_decide_eq_true h
  refine sextFrom_eq_of_bits (by decide) (by omega) (by omega) fun i hi => ?_
  interval_cases i <;> simp [immPass_cons, immPass_nil, iFormat, fieldAt, field12]

theorem immS_sFormat {imm : Word} (h : fitsI imm = true) (rs2 rs1 : Reg) (f3 : BitVec 3)
    (op : BitVec 7) : immS (sFormat imm rs2 rs1 f3 op) = imm := by
  obtain ⟨hlo, hhi⟩ := of_decide_eq_true h
  refine sextFrom_eq_of_bits (by decide) (by omega) (by omega) fun i hi => ?_
  interval_cases i <;>
    simp [immDecode, getElem_sextFrom, immPass_cons, immPass_nil, sFormat, fieldAt]

theorem immB_bFormat {imm : Word} (h : fitsB imm = true) (rs2 rs1 : Reg) (f3 : BitVec 3)
    (op : BitVec 7) : immB (bFormat imm rs2 rs1 f3 op) = imm := by
  obtain ⟨hlo, hhi, heven⟩ := of_decide_eq_true h
  have h0 : imm[0] = false := getLsbD_zero_of_even heven
  refine sextFrom_eq_of_bits (by decide) (by omega) (by omega) fun i hi => ?_
  interval_cases i <;>
    simp [immDecode, getElem_sextFrom, immPass_cons, immPass_nil, bFormat, fieldAt, h0]

theorem immU_uFormat {imm : Word} (h : fitsU imm = true) (rd : Reg) (op : BitVec 7) :
    immU (uFormat imm rd op) = imm := by
  have hmod : imm.toNat % 2 ^ 12 = 0 := of_decide_eq_true h
  refine BitVec.eq_of_getLsbD_eq fun i hi => ?_
  by_cases hlow : i < 12
  · rw [getLsbD_of_toNat_mod hmod hlow]
    simp [immU, immDecode, immPass_cons, immPass_nil, hlow]
  · have hfield : (uFormat imm rd op).extractLsb' 12 20 = imm.extractLsb' 12 20 := by
      refine BitVec.eq_of_getLsbD_eq fun j hj => ?_
      interval_cases j <;> simp [uFormat, fieldAt]
    simp [immU, immDecode, immPass_cons, immPass_nil, hfield, hlow, hi, show i - 12 < 20 by omega,
      show 12 + (i - 12) = i by omega]

theorem immJ_jFormat {imm : Word} (h : fitsJ imm = true) (rd : Reg) (op : BitVec 7) :
    immJ (jFormat imm rd op) = imm := by
  obtain ⟨hlo, hhi, heven⟩ := of_decide_eq_true h
  have h0 : imm[0] = false := getLsbD_zero_of_even heven
  refine sextFrom_eq_of_bits (by decide) (by omega) (by omega) fun i hi => ?_
  interval_cases i <;> simp [immPass_cons, immPass_nil, jFormat, fieldAt, h0]

/-! ## Instructions -/

/-- Decoding the word of a well-formed instruction gives the instruction back (R104). -/
theorem decodeWord_encode {i : Instr} (h : wellFormed i = true) : decodeWord (encode i) = some i := by
  cases i with
  | lui _ _ | auipc _ _ => simp [encode, decodeWord, immU_uFormat h]
  | jal _ _ => simp [encode, decodeWord, immJ_jFormat h]
  | jalr _ _ _ => simp [encode, decodeWord, immI_iFormat h]
  | beq _ _ _ | bne _ _ _ | blt _ _ _ | bge _ _ _ | bltu _ _ _ | bgeu _ _ _ =>
    simp [encode, decodeWord, decodeBranch, immB_bFormat h]
  | lb _ _ _ | lh _ _ _ | lw _ _ _ | lbu _ _ _ | lhu _ _ _ =>
    simp [encode, decodeWord, decodeLoad, immI_iFormat h]
  | sb _ _ _ | sh _ _ _ | sw _ _ _ => simp [encode, decodeWord, decodeStore, immS_sFormat h]
  | addi _ _ _ | slti _ _ _ | sltiu _ _ _ | xori _ _ _ | ori _ _ _ | andi _ _ _ =>
    simp [encode, decodeWord, decodeOpImm, immI_iFormat h]
  | slli _ _ _ | srli _ _ _ | srai _ _ _ => simp [encode, decodeWord, decodeOpImm]
  | add _ _ _ | sub _ _ _ | sll _ _ _ | slt _ _ _ | sltu _ _ _ | xor _ _ _ | srl _ _ _ | sra _ _ _
  | or _ _ _ | and _ _ _ => simp [encode, decodeWord, decodeOp]
  | fence _ _ _ _ _ => simp [encode, decodeWord]
  | ecall | ebreak | mret => decide
  | csrrw _ _ _ | csrrs _ _ _ | csrrc _ _ _ | csrrwi _ _ _ | csrrsi _ _ _ | csrrci _ _ _ =>
    simp [encode, decodeWord, decodeSystem]

end Sys2Proof
end

section
/-! PROOFS. The memory: reads and writes as the bytes of their span, the fetch, and what no step
changes. -/

namespace Sys2Proof

/-! ## The bytes of a halfword and of a word (R65) -/

/-- The low n bytes of a word, least significant first: what a store of width n writes (R63). -/
def lowBytes (v : Word) (n : Nat) : List Byte := (List.range n).map fun k => v.extractLsb' (8 * k) 8

@[simp] theorem length_lowBytes (v : Word) (n : Nat) : (lowBytes v n).length = n := by
  simp [lowBytes]

theorem getElem_lowBytes (v : Word) {n k : Nat} (hk : k < (lowBytes v n).length) :
    (lowBytes v n)[k] = v.extractLsb' (8 * k) 8 := by
  simp [lowBytes]

/-- Two bytes make a halfword exactly if each is that byte of it. -/
theorem halfOfBytes_eq_iff {byte : Nat → Byte} {v : Half} :
    halfOfBytes (byte 0) (byte 1) = v ↔ ∀ k < 2, byte k = v.extractLsb' (8 * k) 8 := by
  constructor
  · rintro rfl k hk
    refine BitVec.eq_of_getLsbD_eq fun i hi => ?_
    interval_cases k <;> interval_cases i <;> simp [halfOfBytes]
  · intro h
    refine BitVec.eq_of_getLsbD_eq fun i hi => ?_
    interval_cases i <;> simp [halfOfBytes, h]

/-- Four bytes make a word exactly if each is that byte of it. -/
theorem wordOfBytes_eq_iff {byte : Nat → Byte} {v : Word} :
    wordOfBytes (byte 0) (byte 1) (byte 2) (byte 3) = v ↔
      ∀ k < 4, byte k = v.extractLsb' (8 * k) 8 := by
  constructor
  · rintro rfl k hk
    refine BitVec.eq_of_getLsbD_eq fun i hi => ?_
    interval_cases k <;> interval_cases i <;> simp [wordOfBytes]
  · intro h
    refine BitVec.eq_of_getLsbD_eq fun i hi => ?_
    interval_cases i <;> simp [wordOfBytes, h]

/-- The bytes of the low halfword of a word are its low bytes. -/
theorem extractLsb'_lowHalf (v : Word) {lo : Nat} (h : lo + 8 ≤ 16) :
    (v.extractLsb' 0 16).extractLsb' lo 8 = v.extractLsb' lo 8 := by
  refine BitVec.eq_of_getLsbD_eq fun i hi => ?_
  simp [hi, show lo + i < 16 by omega]

end Sys2Proof

namespace Sys2Proof.Machine

variable {m m' : Memory} {a : Word} {n : Nat} {s t : State} {i : Instr}

/-! ## Reads (R61, R62) -/

theorem Memory.readByte_isSome : (m.readByte a).isSome ↔ m.covered a 1 = true := by
  simp [Memory.readByte]

theorem Memory.readHalf_isSome : (m.readHalf a).isSome ↔ m.covered a 2 = true := by
  simp [Memory.readHalf]

theorem Memory.readWord_isSome : (m.readWord a).isSome ↔ m.covered a 4 = true := by
  simp [Memory.readWord]

/-- A halfword is read exactly where its span is covered and holds its bytes. -/
theorem Memory.readHalf_eq_some_iff {v : Half} : m.readHalf a = some v ↔
    m.covered a 2 = true ∧ ∀ k < 2, m.cell (a.toNat + k) = v.extractLsb' (8 * k) 8 := by
  rw [← halfOfBytes_eq_iff (byte := fun k => m.cell (a.toNat + k))]
  simp [Memory.readHalf]

/-- A word is read exactly where its span is covered and holds its bytes. -/
theorem Memory.readWord_eq_some_iff {v : Word} : m.readWord a = some v ↔
    m.covered a 4 = true ∧ ∀ k < 4, m.cell (a.toNat + k) = v.extractLsb' (8 * k) 8 := by
  rw [← wordOfBytes_eq_iff (byte := fun k => m.cell (a.toNat + k))]
  simp [Memory.readWord]

/-- A byte of a covered span reads as its cell. -/
theorem Memory.readByte_in_span (h : m.covered a n = true) {k : Nat} (hk : k < n) :
    m.readByte (a + BitVec.ofNat 32 k) = some (m.cell (a.toNat + k)) := by
  rw [Memory.readByte_of_covered (Memory.covered_byte h hk), Memory.covered_toNat h hk]

/-- Byte k of a halfword read is the byte at offset k. -/
theorem Memory.readByte_of_readHalf {v : Half} (h : m.readHalf a = some v) {k : Nat} (hk : k < 2) :
    m.readByte (a + BitVec.ofNat 32 k) = some (v.extractLsb' (8 * k) 8) := by
  obtain ⟨hc, hcell⟩ := Memory.readHalf_eq_some_iff.1 h
  rw [Memory.readByte_in_span hc hk, hcell k hk]

/-- Byte k of a word read is the byte at offset k. -/
theorem Memory.readByte_of_readWord {v : Word} (h : m.readWord a = some v) {k : Nat} (hk : k < 4) :
    m.readByte (a + BitVec.ofNat 32 k) = some (v.extractLsb' (8 * k) 8) := by
  obtain ⟨hc, hcell⟩ := Memory.readWord_eq_some_iff.1 h
  rw [Memory.readByte_in_span hc hk, hcell k hk]

/-- Settles O19: a read succeeds by the span rule, and its value has the bytes of its span. -/
theorem readsAreLittleEndian : Obligations.ReadsAreLittleEndian := by
  intro m a
  exact ⟨Memory.readByte_isSome.trans Memory.covered_iff,
    Memory.readHalf_isSome.trans Memory.covered_iff,
    Memory.readWord_isSome.trans Memory.covered_iff,
    fun _ h _ hk => Memory.readByte_of_readHalf h hk,
    fun _ h _ hk => Memory.readByte_of_readWord h hk⟩

/-! ## Writes (R61, R63) -/

/-- What a write that succeeds leaves: the same regions, and the bytes written in the span. -/
theorem Memory.writeBytes_some {bytes : List Byte} (h : m.writeBytes a bytes = some m') :
    m.covered a bytes.length = true ∧ m'.regions = m.regions ∧
      ∀ k, (hk : k < bytes.length) → m'.cell (a.toNat + k) = bytes[k] := by
  obtain ⟨-, hnone⟩ | ⟨hc, n, hn, hregions, hcell⟩ := Memory.writeBytes_cases (m := m) (a := a)
    (bytes := bytes)
  · cases hnone.symm.trans h
  · obtain rfl : n = m' := Option.some.inj (hn.symm.trans h)
    exact ⟨hc, hregions, fun k hk => by simp [hcell, hk]⟩

/-- The writes of each width, as writes of the low bytes of the value. -/
theorem write_eq_writeBytes {write : Memory → Word → Word → Option Memory}
    (h : (n, write) ∈ [(1, Memory.writeByte), (2, Memory.writeHalf), (4, Memory.writeWord)])
    (m : Memory) (a v : Word) : write m a v = m.writeBytes a (lowBytes v n) := by
  simp only [List.mem_cons, Prod.mk.injEq, List.not_mem_nil, or_false] at h
  obtain ⟨rfl, rfl⟩ | ⟨rfl, rfl⟩ | ⟨rfl, rfl⟩ := h <;> rfl

/-- Settles O20: every width writes the low bytes of its value, and a write of bytes sets its span
and no other byte. -/
theorem writesSetTheirBytes : Obligations.WritesSetTheirBytes := by
  intro m a v n write hwrite
  rw [write_eq_writeBytes hwrite]
  obtain ⟨hc, hnone⟩ | ⟨hc, m', hm', -⟩ := Memory.writeBytes_cases (m := m) (a := a)
    (bytes := lowBytes v n) <;> rw [length_lowBytes] at hc
  · exact ⟨fun h => absurd (hc.symm.trans h) nofun, fun _ => hnone⟩
  · obtain ⟨-, hregions, hcell⟩ := Memory.writeBytes_some hm'
    refine ⟨fun _ => ⟨m', hm', hregions, fun k hk => ?_, fun b hb => ?_⟩,
      fun h => absurd (hc.symm.trans h) nofun⟩
    · rw [Memory.readByte_in_span ((Memory.covered_congr hregions).trans hc) hk,
        hcell k (by simpa using hk), getElem_lowBytes]
    · exact Memory.readByte_writeBytes_other hm' (by simpa using hb)

/-- After a word is written its span is covered and holds its bytes. -/
theorem Memory.cells_of_writeWord {v : Word} (h : m.writeWord a v = some m') :
    m'.covered a 4 = true ∧ ∀ k < 4, m'.cell (a.toNat + k) = v.extractLsb' (8 * k) 8 := by
  obtain ⟨hc, hregions, hcell⟩ := Memory.writeBytes_some (bytes := lowBytes v 4) h
  refine ⟨(Memory.covered_congr hregions).trans hc, fun k hk => ?_⟩
  rw [hcell k (by simpa using hk), getElem_lowBytes]

/-- A word written is read back. -/
theorem Memory.readWord_of_writeWord {v : Word} (h : m.writeWord a v = some m') :
    m'.readWord a = some v := Memory.readWord_eq_some_iff.2 (Memory.cells_of_writeWord h)

/-- The first n bytes of a covered span are covered. -/
theorem Memory.covered_prefix {n' : Nat} (h : m.covered a n = true) (hn : n' ≤ n) :
    m.covered a n' = true := by
  obtain ⟨hend, r, hr, hlo, hhi⟩ := Memory.covered_iff.1 h
  exact Memory.covered_iff.2 ⟨by omega, r, hr, hlo, by omega⟩

/-- Where a word is read, its low halfword is. -/
theorem Memory.readHalf_of_readWord {v : Word} (h : m.readWord a = some v) :
    m.readHalf a = some (v.extractLsb' 0 16) := by
  obtain ⟨hc, hcell⟩ := Memory.readWord_eq_some_iff.1 h
  refine Memory.readHalf_eq_some_iff.2 ⟨Memory.covered_prefix hc (by decide), fun k hk => ?_⟩
  rw [hcell k (by omega), extractLsb'_lowHalf v (by omega)]

/-- Settles O21: a word written is read back whole, and every narrower read is part of that one. -/
theorem mixedWidthReadBack : Obligations.MixedWidthReadBack := by
  intro m m' a v h
  have hread := Memory.readWord_of_writeWord h
  exact ⟨hread, Memory.readHalf_of_readWord hread, fun _ hk => Memory.readByte_of_readWord hread hk⟩

/-- A word is written wherever one can be read. -/
theorem Memory.writeWord_of_readWord {v : Word} (h : m.readWord a ≠ none) :
    ∃ m', m.writeWord a v = some m' := by
  have hc : m.covered a 4 = true := Memory.readWord_isSome.1 (Option.isSome_iff_ne_none.2 h)
  obtain ⟨hc', -⟩ | ⟨-, m', hm', -⟩ := Memory.writeBytes_cases (m := m) (a := a)
    (bytes := bytesOfWord v)
  · cases hc.symm.trans hc'
  · exact ⟨m', hm'⟩

/-- Settles O22: the store leaves the instruction's word at its own next PC, where the next step
reads it back and performs it. -/
theorem storeIsFetchedNext : Obligations.StoreIsFetchedNext := by
  intro s t rs2 rs1 imm i hs hwf hvalue haddr hmapped h
  obtain ⟨m, hm⟩ := Memory.writeWord_of_readWord (v := encode i) hmapped
  have hstore : exec (.sw rs2 rs1 imm) s = .next (retire (nextPc s) { s with mem := m }) := by
    rw [← haddr, ← hvalue] at hm
    exact congrArg (fun mem => finishStore _ mem s) hm
  obtain rfl := next_inj (hstore.symm.trans h)
  exact stepRunsDecoded _ (encode i) i hs (Memory.readWord_of_writeWord hm) (decodeWord_encode hwf)

/-! ## The fetch (R64, R91) -/

/-- The opcodes of the rows of R105. -/
def decodedOpcodes : List (BitVec 7) :=
  [0b0110111#7, 0b0010111#7, 0b1101111#7, 0b1100111#7, 0b1100011#7, 0b0000011#7, 0b0100011#7,
    0b0010011#7, 0b0110011#7, 0b0001111#7, 0b1110011#7]

/-- A word with no opcode of the table decodes to nothing. -/
theorem decodeWord_of_unknown_opcode {w : Word} (h : opcodeOf w ∉ decodedOpcodes) :
    decodeWord w = none := by
  simp only [decodedOpcodes, List.mem_cons, List.not_mem_nil, not_or] at h
  simp [decodeWord, h]

/-- No opcode of the table has bits [4:0] all 1. -/
theorem decodeWord_of_low_ones {w : Word} (h : w.extractLsb' 0 5 = 0b11111#5) :
    decodeWord w = none := by
  refine decodeWord_of_unknown_opcode fun hmem => ?_
  have hlow : (opcodeOf w).extractLsb' 0 5 = w.extractLsb' 0 5 := by
    refine BitVec.eq_of_getLsbD_eq fun i hi => ?_
    simp [opcodeOf, hi]
  have hnone : ∀ op ∈ decodedOpcodes, op.extractLsb' 0 5 ≠ 0b11111#5 := by decide
  exact hnone _ hmem (hlow.trans h)

/-- The fetch fails at an unmapped first byte. -/
theorem fetchBytes_of_unmapped (h : m.readByte a = none) : fetchBytes a m = none := by
  simp [fetchBytes, h]

/-- After its first byte the fetch is decided by the span rule for the length that byte gives. -/
theorem fetchBytes_of_readByte {b : Byte} (h : m.readByte a = some b) :
    fetchBytes a m = if m.covered a (instrLength b) then
      some ((List.range (instrLength b)).map fun k => m.cell (a.toNat + k)) else none := by
  simp [fetchBytes, h]

/-- The fetch of a covered span delivers given bytes if the cells of the span hold them. -/
theorem fetchBytes_eq_some {b : Byte} {bytes : List Byte} (h : m.readByte a = some b)
    (hc : m.covered a bytes.length = true) (hlen : instrLength b = bytes.length)
    (hcell : ∀ k, (hk : k < bytes.length) → m.cell (a.toNat + k) = bytes[k]) :
    fetchBytes a m = some bytes := by
  rw [fetchBytes_of_readByte h, hlen, if_pos hc, Option.some.injEq]
  exact List.ext_getElem (by simp) fun k _ hk => by simp [hcell k hk]

/-- A step whose fetch fails raises the fetch fault and changes nothing else. -/
theorem step_of_fetch_failed (hs : s.status = .running) (hf : fetchBytes s.pc s.mem = none) :
    step s = .next (raise (.unmappedAddress s.pc .fetch) s) := by
  have hfront : fetchDecode s.pc s.mem = .raises (.unmappedAddress s.pc .fetch) := by
    simp [fetchDecode, hf]
  rw [step_of_running hs, hfront]

/-- Settles O38: the length rule, the words no row takes, the fetch by its first byte, and the step
whose fetch fails. -/
theorem fetchAndLength : Obligations.FetchAndLength := by
  refine ⟨fun b => ⟨fun h => if_pos h, fun h => if_neg h⟩, fun w => decodeWord_of_low_ones,
    fun a m => ⟨fetchBytes_of_unmapped, fun b hb => ⟨fun hc => ?_, fun p hlen hp => ?_,
      fun w hlen hw => ?_⟩⟩, fun s => step_of_fetch_failed⟩
  · rw [fetchBytes_of_readByte hb, hc]
    rfl
  · obtain ⟨hc, hcell⟩ := Memory.readHalf_eq_some_iff.1 hp
    refine fetchBytes_eq_some hb hc hlen fun k hk => (hcell k hk).trans ?_
    match k, hk with
    | 0, _ | 1, _ => rfl
  · obtain ⟨hc, hcell⟩ := Memory.readWord_eq_some_iff.1 hw
    refine fetchBytes_eq_some hb hc hlen fun k hk => (hcell k hk).trans ?_
    exact (getElem_lowBytes w (n := 4) hk).symm

/-- Settles O57: no region of the image holds the first byte, so the fetch of the first step fails. -/
theorem unmappedResetPcFaults : Obligations.UnmappedResetPcFaults := by
  intro image resetPc params h
  have hunmapped : (Memory.ofImage image).readByte resetPc = none := by
    by_contra hne
    obtain ⟨-, r, hr, hlo, hhi⟩ := Memory.covered_iff.1
      (Memory.readByte_isSome.1 (Option.isSome_iff_ne_none.2 hne))
    obtain ⟨ir, hir, rfl⟩ := List.mem_map.1 hr
    exact h ir hir ⟨hlo, hhi⟩
  exact step_of_fetch_failed rfl (fetchBytes_of_unmapped hunmapped)

/-! ## What no step changes (R60, R293) -/

/-- Every shape of a next state has the regions and the parameters it started with. -/
theorem ExecShape.regions_params (h : ExecShape i s t) :
    t.mem.regions = s.mem.regions ∧ t.params = s.params := by
  cases h with
  | stored a bytes m hspan hw ht =>
    obtain ⟨-, hregions, -⟩ := Memory.writeBytes_some hw
    exact ht ▸ ⟨hregions, rfl⟩
  | wrote _ _ _ _ ht | moved _ ht | csr _ _ _ _ _ ht | halted _ _ ht | raised _ ht =>
    exact ht ▸ ⟨rfl, rfl⟩

/-- Settles O51: a fault changes the run status only, and an instruction keeps both. -/
theorem regionsAndParametersFixed : Obligations.RegionsAndParametersFixed := by
  intro s t h
  obtain ⟨reason, rfl⟩ | ⟨i, -, hshape⟩ := step_shape h
  · exact ⟨rfl, rfl⟩
  · exact hshape.regions_params

end Sys2Proof.Machine
end

section
/-! PROOFS. Encoding and decoding: the immediates in closed form (R99 to R103), the decoder by major
opcode, and the round trip in both directions (R104, R105). -/

namespace Sys2Proof

variable {w : Word} {i : Instr}

/-! ## The immediates in closed form (R99 to R103) -/

/-- Sign extension from bit b of collected bits is sign extension of the value they spell. -/
theorem sextFrom_eq_signExtend {v : Word} {b n : Nat} {x : BitVec n} (hn : n = b + 1)
    (h : ∀ i < n, v.getLsbD i = x.getLsbD i) : sextFrom v b = x.signExtend 32 := by
  subst hn
  have hx : v.extractLsb' 0 (b + 1) = x := BitVec.eq_of_getLsbD_eq fun i hi => by simp [hi, h]
  rw [sextFrom, hx]

theorem immI_eq_signExtend (w : Word) : immI w = (w.extractLsb' 20 12).signExtend 32 := by
  refine sextFrom_eq_signExtend rfl fun i hi => ?_
  interval_cases i <;> simp [immPass_cons, immPass_nil]

theorem immS_eq_signExtend (w : Word) :
    immS w = BitVec.signExtend 32 (w.extractLsb' 25 7 ++ w.extractLsb' 7 5) := by
  refine sextFrom_eq_signExtend rfl fun i hi => ?_
  simp only [BitVec.getLsbD_append]
  interval_cases i <;>
    simp [immDecode, getElem_sextFrom, immPass_cons, immPass_nil]

theorem immB_eq_signExtend (w : Word) : immB w = BitVec.signExtend 32 (w.extractLsb' 31 1 ++
    w.extractLsb' 7 1 ++ w.extractLsb' 25 6 ++ w.extractLsb' 8 4 ++ 0#1) := by
  refine sextFrom_eq_signExtend rfl fun i hi => ?_
  simp only [BitVec.getLsbD_append]
  interval_cases i <;>
    simp [immDecode, getElem_sextFrom, immPass_cons, immPass_nil]

theorem immU_eq_shiftLeft (w : Word) : immU w = (w.extractLsb' 12 20).setWidth 32 <<< 12 := by
  simp [immU, immDecode, immPass_cons, immPass_nil]

theorem immJ_eq_signExtend (w : Word) : immJ w = BitVec.signExtend 32 (w.extractLsb' 31 1 ++
    w.extractLsb' 12 8 ++ w.extractLsb' 20 1 ++ w.extractLsb' 21 10 ++ 0#1) := by
  refine sextFrom_eq_signExtend rfl fun i hi => ?_
  simp only [BitVec.getLsbD_append]
  interval_cases i <;> simp [immPass_cons, immPass_nil]


/-! ## The ranges of the immediates -/

/-- A value sign-extended from n bits lies in the signed range of n bits. -/
theorem toInt_signExtend_range {n : Nat} (x : BitVec n) (hn : n ≤ 32) :
    -(2 : Int) ^ (n - 1) ≤ (x.signExtend 32).toInt ∧
      (x.signExtend 32).toInt < (2 : Int) ^ (n - 1) := by
  rw [BitVec.toInt_signExtend_of_le hn]
  exact ⟨x.le_toInt, x.toInt_lt⟩

/-- A value with bit 0 clear is even. -/
theorem even_of_getLsbD_zero {v : Word} (h : v.getLsbD 0 = false) : v.toInt % 2 = 0 := by
  have hmod : v.toNat % 2 = 0 := by simpa [BitVec.getLsbD, Nat.testBit_zero] using h
  have := BitVec.toInt_eq_toNat_cond v
  omega

theorem immI_range (w : Word) : -2048 ≤ (immI w).toInt ∧ (immI w).toInt ≤ 2047 := by
  have h := toInt_signExtend_range (w.extractLsb' 20 12) (by decide)
  rw [← immI_eq_signExtend] at h
  omega

theorem immS_range (w : Word) : -2048 ≤ (immS w).toInt ∧ (immS w).toInt ≤ 2047 := by
  have h := toInt_signExtend_range (w.extractLsb' 25 7 ++ w.extractLsb' 7 5) (by decide)
  rw [← immS_eq_signExtend] at h
  omega

/-- Appending a zero bit clears bit 0, under sign extension too. -/
theorem getLsbD_zero_signExtend_append {n : Nat} (x : BitVec n) :
    (BitVec.signExtend 32 (x ++ 0#1)).getLsbD 0 = false := by
  rw [BitVec.getLsbD_signExtend, BitVec.getLsbD_append]
  simp

theorem getLsbD_zero_immB (w : Word) : (immB w).getLsbD 0 = false := by
  rw [immB_eq_signExtend, getLsbD_zero_signExtend_append]

theorem getLsbD_zero_immJ (w : Word) : (immJ w).getLsbD 0 = false := by
  rw [immJ_eq_signExtend, getLsbD_zero_signExtend_append]

theorem immB_range (w : Word) :
    -4096 ≤ (immB w).toInt ∧ (immB w).toInt ≤ 4094 ∧ (immB w).toInt % 2 = 0 := by
  have h := toInt_signExtend_range (w.extractLsb' 31 1 ++ w.extractLsb' 7 1 ++
    w.extractLsb' 25 6 ++ w.extractLsb' 8 4 ++ 0#1) (by decide)
  have heven := even_of_getLsbD_zero (getLsbD_zero_immB w)
  rw [← immB_eq_signExtend] at h
  omega

theorem immJ_range (w : Word) :
    -1048576 ≤ (immJ w).toInt ∧ (immJ w).toInt ≤ 1048574 ∧ (immJ w).toInt % 2 = 0 := by
  have h := toInt_signExtend_range (w.extractLsb' 31 1 ++ w.extractLsb' 12 8 ++
    w.extractLsb' 20 1 ++ w.extractLsb' 21 10 ++ 0#1) (by decide)
  have heven := even_of_getLsbD_zero (getLsbD_zero_immJ w)
  rw [← immJ_eq_signExtend] at h
  omega

theorem immU_mod (w : Word) : (immU w).toNat % 4096 = 0 := by
  have hdvd : 4096 ∣ 2 ^ 32 := by decide
  rw [immU_eq_shiftLeft, BitVec.toNat_shiftLeft, Nat.mod_mod_of_dvd _ hdvd, Nat.shiftLeft_eq]
  omega

/-- Settles O6: each closed form from the bits the slices collect, each range from the width that is
sign-extended. -/
theorem immediatesClosedForms : Obligations.ImmediatesClosedForms := by
  intro w
  obtain ⟨hBlo, hBhi, -⟩ := immB_range w
  obtain ⟨hJlo, hJhi, -⟩ := immJ_range w
  exact ⟨⟨rfl, immI_eq_signExtend w, immI_range w⟩, ⟨rfl, immS_eq_signExtend w, immS_range w⟩,
    ⟨rfl, immB_eq_signExtend w, getLsbD_zero_immB w, hBlo, hBhi⟩,
    ⟨rfl, immU_eq_shiftLeft w, immU_mod w⟩,
    ⟨rfl, immJ_eq_signExtend w, getLsbD_zero_immJ w, hJlo, hJhi⟩⟩

/-- Settles O5: each format's immediate comes back. -/
theorem immediatesRoundTrip : Obligations.ImmediatesRoundTrip := by
  intro v rd rs1 rs2 f3 op
  exact ⟨fun h => immI_iFormat (decide_eq_true h) rs1 f3 rd op,
    fun h => immS_sFormat (decide_eq_true h) rs2 rs1 f3 op,
    fun h => immB_bFormat (decide_eq_true h) rs2 rs1 f3 op,
    fun h => immU_uFormat (decide_eq_true h) rd op,
    fun h => immJ_jFormat (decide_eq_true h) rd op⟩

/-! ## A word is its fields: each format rebuilds any word from the fields read from it -/

theorem rFormat_of_fields {f7 : BitVec 7} {f3 : BitVec 3} {op : BitVec 7} (h7 : funct7Of w = f7)
    (h3 : funct3Of w = f3) (hop : opcodeOf w = op) :
    rFormat f7 (rs2Of w) (rs1Of w) f3 (rdOf w) op = w := by
  subst h7 h3 hop
  refine BitVec.eq_of_getLsbD_eq fun i hi => ?_
  interval_cases i <;> simp [rFormat, fieldAt, funct7Of, rs2Of, rs1Of, funct3Of, rdOf, opcodeOf]

theorem iFormat_csr_of_fields {f3 : BitVec 3} {op : BitVec 7} (h3 : funct3Of w = f3)
    (hop : opcodeOf w = op) : iFormat (csrOf w) (rs1Of w) f3 (rdOf w) op = w := by
  subst h3 hop
  refine BitVec.eq_of_getLsbD_eq fun i hi => ?_
  interval_cases i <;> simp [iFormat, fieldAt, csrOf, rs1Of, funct3Of, rdOf, opcodeOf]

/-- The 12 bits of an I-immediate are the CSR field's. -/
theorem field12_immI (w : Word) : field12 (immI w) = csrOf w := by
  refine BitVec.eq_of_getLsbD_eq fun i hi => ?_
  simp [field12, csrOf, immI_eq_signExtend, BitVec.getElem_signExtend, hi, show i < 32 by omega]

theorem iFormat_imm_of_fields {f3 : BitVec 3} {op : BitVec 7} (h3 : funct3Of w = f3)
    (hop : opcodeOf w = op) : iFormat (field12 (immI w)) (rs1Of w) f3 (rdOf w) op = w := by
  rw [field12_immI, iFormat_csr_of_fields h3 hop]

theorem fenceFormat_of_fields {f3 : BitVec 3} {op : BitVec 7} (h3 : funct3Of w = f3)
    (hop : opcodeOf w = op) :
    fenceFormat (fmOf w) (predOf w) (succOf w) (rs1Of w) f3 (rdOf w) op = w := by
  subst h3 hop
  refine BitVec.eq_of_getLsbD_eq fun i hi => ?_
  interval_cases i <;>
    simp [fenceFormat, fieldAt, fmOf, predOf, succOf, rs1Of, funct3Of, rdOf, opcodeOf]

theorem sFormat_of_fields {f3 : BitVec 3} {op : BitVec 7} (h3 : funct3Of w = f3)
    (hop : opcodeOf w = op) : sFormat (immS w) (rs2Of w) (rs1Of w) f3 op = w := by
  subst h3 hop
  refine BitVec.eq_of_getLsbD_eq fun i hi => ?_
  interval_cases i <;> simp [sFormat, fieldAt, immS, immDecode, getElem_sextFrom, immPass_cons,
    immPass_nil, rs2Of, rs1Of, funct3Of, opcodeOf]

theorem bFormat_of_fields {f3 : BitVec 3} {op : BitVec 7} (h3 : funct3Of w = f3)
    (hop : opcodeOf w = op) : bFormat (immB w) (rs2Of w) (rs1Of w) f3 op = w := by
  subst h3 hop
  refine BitVec.eq_of_getLsbD_eq fun i hi => ?_
  interval_cases i <;> simp [bFormat, fieldAt, immB, immDecode, getElem_sextFrom, immPass_cons,
    immPass_nil, rs2Of, rs1Of, funct3Of, opcodeOf]

theorem uFormat_of_fields {op : BitVec 7} (hop : opcodeOf w = op) :
    uFormat (immU w) (rdOf w) op = w := by
  subst hop
  refine BitVec.eq_of_getLsbD_eq fun i hi => ?_
  interval_cases i <;> simp [uFormat, fieldAt, immU_eq_shiftLeft, rdOf, opcodeOf]

theorem jFormat_of_fields {op : BitVec 7} (hop : opcodeOf w = op) :
    jFormat (immJ w) (rdOf w) op = w := by
  subst hop
  refine BitVec.eq_of_getLsbD_eq fun i hi => ?_
  interval_cases i <;> simp [jFormat, fieldAt, immJ, immDecode, getElem_sextFrom, immPass_cons,
    immPass_nil, rdOf, opcodeOf]

/-! ## The decoder by major opcode (R105) -/

theorem decodeWord_lui (h : opcodeOf w = 0b0110111#7) :
    decodeWord w = some (.lui (rdOf w) (immU w)) := by
  simp [decodeWord, h]

theorem decodeWord_auipc (h : opcodeOf w = 0b0010111#7) :
    decodeWord w = some (.auipc (rdOf w) (immU w)) := by
  simp [decodeWord, h]

theorem decodeWord_jal (h : opcodeOf w = 0b1101111#7) :
    decodeWord w = some (.jal (rdOf w) (immJ w)) := by
  simp [decodeWord, h]

theorem decodeWord_jalr (h : opcodeOf w = 0b1100111#7) : decodeWord w =
    if funct3Of w = 0b000#3 then some (.jalr (rdOf w) (rs1Of w) (immI w)) else none := by
  simp [decodeWord, h]

theorem decodeWord_branch (h : opcodeOf w = 0b1100011#7) : decodeWord w = decodeBranch w := by
  simp [decodeWord, h]

theorem decodeWord_load (h : opcodeOf w = 0b0000011#7) : decodeWord w = decodeLoad w := by
  simp [decodeWord, h]

theorem decodeWord_store (h : opcodeOf w = 0b0100011#7) : decodeWord w = decodeStore w := by
  simp [decodeWord, h]

theorem decodeWord_opImm (h : opcodeOf w = 0b0010011#7) : decodeWord w = decodeOpImm w := by
  simp [decodeWord, h]

theorem decodeWord_op (h : opcodeOf w = 0b0110011#7) : decodeWord w = decodeOp w := by
  simp [decodeWord, h]

theorem decodeWord_fence (h : opcodeOf w = 0b0001111#7) : decodeWord w =
    if funct3Of w = 0b000#3 then
      some (.fence (fmOf w) (predOf w) (succOf w) (rs1Of w) (rdOf w)) else none := by
  simp [decodeWord, h]

theorem decodeWord_system (h : opcodeOf w = 0b1110011#7) : decodeWord w = decodeSystem w := by
  simp [decodeWord, h]

/-! ## The round trip (R93, R104, R105) -/

/-- The instruction is well formed, and w is its word. -/
def Encodes (i : Instr) (w : Word) : Prop := wellFormed i = true ∧ encode i = w

theorem fitsI_immI (w : Word) : fitsI (immI w) = true := decide_eq_true (immI_range w)
theorem fitsI_immS (w : Word) : fitsI (immS w) = true := decide_eq_true (immS_range w)
theorem fitsB_immB (w : Word) : fitsB (immB w) = true := decide_eq_true (immB_range w)
theorem fitsU_immU (w : Word) : fitsU (immU w) = true := decide_eq_true (immU_mod w)
theorem fitsJ_immJ (w : Word) : fitsJ (immJ w) = true := decide_eq_true (immJ_range w)

theorem encodes_of_decodeBranch (hop : opcodeOf w = 0b1100011#7) (h : decodeBranch w = some i) :
    Encodes i w := by
  unfold decodeBranch at h
  split_ifs at h with h3 h3 h3 h3 h3 h3 <;> cases h <;>
    exact ⟨fitsB_immB w, bFormat_of_fields h3 hop⟩

theorem encodes_of_decodeLoad (hop : opcodeOf w = 0b0000011#7) (h : decodeLoad w = some i) :
    Encodes i w := by
  unfold decodeLoad at h
  split_ifs at h with h3 h3 h3 h3 h3 <;> cases h <;>
    exact ⟨fitsI_immI w, iFormat_imm_of_fields h3 hop⟩

theorem encodes_of_decodeStore (hop : opcodeOf w = 0b0100011#7) (h : decodeStore w = some i) :
    Encodes i w := by
  unfold decodeStore at h
  split_ifs at h with h3 h3 h3 <;> cases h <;>
    exact ⟨fitsI_immS w, sFormat_of_fields h3 hop⟩

theorem encodes_of_decodeOpImm (hop : opcodeOf w = 0b0010011#7) (h : decodeOpImm w = some i) :
    Encodes i w := by
  unfold decodeOpImm at h
  split_ifs at h with h3 h3 h3 h3 h3 h3 h3 h7 h7 h7 <;> cases h
  iterate 6 exact ⟨fitsI_immI w, iFormat_imm_of_fields h3 hop⟩
  · exact ⟨rfl, rFormat_of_fields h7 h3 hop⟩
  all_goals
    have h5 : funct3Of w = 0b101#3 := by bv_omega
    exact ⟨rfl, rFormat_of_fields h7 h5 hop⟩

theorem encodes_of_decodeOp (hop : opcodeOf w = 0b0110011#7) (h : decodeOp w = some i) :
    Encodes i w := by
  unfold decodeOp at h
  split_ifs at h with h7 h3 h3 h3 h3 h3 h3 h3 h7 h3 h3 <;> cases h
  iterate 7 exact ⟨rfl, rFormat_of_fields h7 h3 hop⟩
  · have h3 : funct3Of w = 0b111#3 := by bv_omega
    exact ⟨rfl, rFormat_of_fields h7 h3 hop⟩
  iterate 2 exact ⟨rfl, rFormat_of_fields h7 h3 hop⟩

theorem encodes_of_decodeSystem (hop : opcodeOf w = 0b1110011#7) (h : decodeSystem w = some i) :
    Encodes i w := by
  unfold decodeSystem at h
  split_ifs at h with h3 hw hw hw h3 h3 h3 h3 h3 h3 <;> cases h
  iterate 3 exact hw ▸ ⟨rfl, rfl⟩
  iterate 6 exact ⟨rfl, iFormat_csr_of_fields h3 hop⟩

/-- A word that decodes has one of the table's opcodes. -/
theorem opcode_mem_of_decodeWord (h : decodeWord w = some i) :
    opcodeOf w ∈ Machine.decodedOpcodes := by
  by_contra hop
  cases (Machine.decodeWord_of_unknown_opcode hop).symm.trans h

/-- A word that decodes is the word of a well-formed instruction. -/
theorem encodes_of_decodeWord (h : decodeWord w = some i) : Encodes i w := by
  have hmem := opcode_mem_of_decodeWord h
  simp only [Machine.decodedOpcodes, List.mem_cons, List.not_mem_nil, or_false] at hmem
  obtain hop | hop | hop | hop | hop | hop | hop | hop | hop | hop | hop := hmem
  · obtain rfl := Option.some.inj ((decodeWord_lui hop).symm.trans h)
    exact ⟨fitsU_immU w, uFormat_of_fields hop⟩
  · obtain rfl := Option.some.inj ((decodeWord_auipc hop).symm.trans h)
    exact ⟨fitsU_immU w, uFormat_of_fields hop⟩
  · obtain rfl := Option.some.inj ((decodeWord_jal hop).symm.trans h)
    exact ⟨fitsJ_immJ w, jFormat_of_fields hop⟩
  · rw [decodeWord_jalr hop] at h
    split_ifs at h with h3
    cases h
    exact ⟨fitsI_immI w, iFormat_imm_of_fields h3 hop⟩
  · exact encodes_of_decodeBranch hop (decodeWord_branch hop ▸ h)
  · exact encodes_of_decodeLoad hop (decodeWord_load hop ▸ h)
  · exact encodes_of_decodeStore hop (decodeWord_store hop ▸ h)
  · exact encodes_of_decodeOpImm hop (decodeWord_opImm hop ▸ h)
  · exact encodes_of_decodeOp hop (decodeWord_op hop ▸ h)
  · rw [decodeWord_fence hop] at h
    split_ifs at h with h3
    cases h
    exact ⟨rfl, fenceFormat_of_fields h3 hop⟩
  · exact encodes_of_decodeSystem hop (decodeWord_system hop ▸ h)

/-- Settles O1, from the round trip of each format. -/
theorem decodeOfEncode : Obligations.DecodeOfEncode := fun _ => decodeWord_encode

/-- Settles O2: in each branch of the decoder the fields read rebuild the word. -/
theorem encodeOfDecode : Obligations.EncodeOfDecode := fun _ _ => encodes_of_decodeWord

/-- The bytes of a word make the word (R63, R65). -/
theorem wordOfBytes_bytes (w : Word) : wordOfBytes (w.extractLsb' 0 8) (w.extractLsb' 8 8)
    (w.extractLsb' 16 8) (w.extractLsb' 24 8) = w :=
  (wordOfBytes_eq_iff (byte := fun k => w.extractLsb' (8 * k) 8)).2 fun _ _ => rfl

/-- The byte decoder on the bytes of a word of four-byte length (R91). -/
theorem decode_bytesOfWord (hlen : instrLength (w.extractLsb' 0 8) = 4) (hw : decodeWord w = some i)
    (rest : List Byte) : decode (bytesOfWord w ++ rest) = .instr i rest := by
  simp [decode, bytesOfWord, hlen, wordOfBytes_bytes, hw]

/-- Settles O3: an encoded word is four bytes long, so the byte decoder takes it whole. -/
theorem decodeOfEncodedBytes : Obligations.DecodeOfEncodedBytes := by
  intro i rest h
  have hdecode := decodeWord_encode h
  exact decode_bytesOfWord (Machine.instrLength_of_decodeWord hdecode) hdecode rest

end Sys2Proof
end

section
/-! PROOFS. The words that decode to nothing (R107, R108), and the steps that raise at them. -/

namespace Sys2Proof

variable {w : Word}

/-! ## The classes of R107 -/

theorem decodeWord_load_none (hop : opcodeOf w = 0x03#7)
    (h3 : funct3Of w ∈ [0b011#3, 0b110#3, 0b111#3]) : decodeWord w = none := by
  rw [decodeWord_load hop, decodeLoad]
  simp only [List.mem_cons, List.not_mem_nil, or_false] at h3
  obtain h3 | h3 | h3 := h3 <;> simp [h3]

theorem decodeWord_store_none (hop : opcodeOf w = 0x23#7)
    (h3 : funct3Of w ∈ [0b011#3, 0b100#3, 0b101#3, 0b110#3, 0b111#3]) : decodeWord w = none := by
  rw [decodeWord_store hop, decodeStore]
  simp only [List.mem_cons, List.not_mem_nil, or_false] at h3
  obtain h3 | h3 | h3 | h3 | h3 := h3 <;> simp [h3]

theorem decodeWord_branch_none (hop : opcodeOf w = 0x63#7) (h3 : funct3Of w ∈ [0b010#3, 0b011#3]) :
    decodeWord w = none := by
  rw [decodeWord_branch hop, decodeBranch]
  simp only [List.mem_cons, List.not_mem_nil, or_false] at h3
  obtain h3 | h3 := h3 <;> simp [h3]

theorem decodeWord_jalr_fence_none (hop : opcodeOf w = 0x67#7 ∨ opcodeOf w = 0x0F#7)
    (h3 : funct3Of w ≠ 0b000#3) : decodeWord w = none := by
  obtain hop | hop := hop
  · rw [decodeWord_jalr hop, if_neg h3]
  · rw [decodeWord_fence hop, if_neg h3]

theorem decodeWord_slli_none (hop : opcodeOf w = 0x13#7) (h3 : funct3Of w = 0b001#3)
    (h7 : funct7Of w ≠ 0b0000000#7) : decodeWord w = none := by
  simp [decodeWord_opImm hop, decodeOpImm, h3, h7]

theorem decodeWord_shiftRight_none (hop : opcodeOf w = 0x13#7) (h3 : funct3Of w = 0b101#3)
    (h7 : funct7Of w ≠ 0b0000000#7) (h7' : funct7Of w ≠ 0b0100000#7) : decodeWord w = none := by
  simp [decodeWord_opImm hop, decodeOpImm, h3, h7, h7']

theorem decodeWord_op_none (hop : opcodeOf w = 0x33#7) (h7 : funct7Of w ≠ 0b0000000#7)
    (h : ¬ (funct7Of w = 0b0100000#7 ∧ funct3Of w ∈ [0b000#3, 0b101#3])) : decodeWord w = none := by
  rw [decodeWord_op hop, decodeOp, if_neg h7]
  split_ifs with hsub h3 h3
  · exact absurd ⟨hsub, by simp [h3]⟩ h
  · exact absurd ⟨hsub, by simp [h3]⟩ h
  · rfl
  · rfl

theorem decodeWord_system_none (hop : opcodeOf w = 0x73#7) (h3 : funct3Of w = 0b100#3) :
    decodeWord w = none := by
  simp [decodeWord_system hop, decodeSystem, h3]

theorem decodeWord_privileged_none (hop : opcodeOf w = 0x73#7) (h3 : funct3Of w = 0b000#3)
    (hw : w ∉ [0x00000073#32, 0x00100073#32, 0x30200073#32]) : decodeWord w = none := by
  simp only [List.mem_cons, List.not_mem_nil, or_false, not_or] at hw
  simp [decodeWord_system hop, decodeSystem, h3, hw]

/-! ## The words outside the block (R108) -/

/-- Settles O8: FENCE.I, the privileged words and M by R107's classes, the other opcodes as ones the
table does not have. -/
theorem outOfScopeWordsAreIllegal : Obligations.OutOfScopeWordsAreIllegal := by
  intro w
  refine ⟨fun hop h3 => ?fencei, fun hw => ?words, fun hop h3 h7 => ?sfence, fun hop h7 => ?m,
    fun hop => ?opcodes⟩
  case fencei => exact decodeWord_jalr_fence_none (.inr hop) (by simp [h3])
  case words =>
    simp only [List.mem_cons, List.not_mem_nil, or_false] at hw
    obtain rfl | rfl | rfl := hw <;>
      exact decodeWord_privileged_none (by decide) (by decide) (by decide)
  case sfence =>
    refine decodeWord_privileged_none hop h3 fun hw => ?_
    simp only [List.mem_cons, List.not_mem_nil, or_false] at hw
    obtain rfl | rfl | rfl := hw <;> exact absurd h7 (by decide)
  case m => exact decodeWord_op_none hop (by simp [h7]) (by simp [h7])
  case opcodes =>
    refine Machine.decodeWord_of_unknown_opcode ?_
    simp only [List.mem_cons, List.not_mem_nil, or_false] at hop
    obtain hop | hop | hop | hop | hop | hop | hop | hop | hop | hop := hop <;>
      simp [Machine.decodedOpcodes, hop]

end Sys2Proof

namespace Sys2Proof.Machine

variable {s : State} {w : Word}

/-! ## The steps that raise (R92, R107) -/

/-- The low two bits of the low byte are the low two bits. -/
theorem extractLsb'_lowByte {n : Nat} (v : BitVec n) :
    (v.extractLsb' 0 8).extractLsb' 0 2 = v.extractLsb' 0 2 := by
  refine BitVec.eq_of_getLsbD_eq fun i hi => ?_
  simp [hi]

/-- A halfword whose low two bits are not 0b11 is a parcel, and raises (R92). -/
theorem step_of_parcel {p : Half} (hs : s.status = .running) (hp : s.mem.readHalf s.pc = some p)
    (hlow : p.extractLsb' 0 2 ≠ 0b11#2) :
    step s = .next (raise (.illegalInstruction s.pc (p.setWidth 32)) s) := by
  have hlen : instrLength (s.mem.cell s.pc.toNat) = 2 := by
    obtain ⟨-, hcell⟩ := Memory.readHalf_eq_some_iff.1 hp
    have hbyte : s.mem.cell s.pc.toNat = p.extractLsb' 0 8 := hcell 0 (by decide)
    rw [hbyte, instrLength, extractLsb'_lowByte, if_neg hlow]
  rw [step_of_running hs, fetchDecode_half hp hlen]

/-- A word of four-byte length that decodes to nothing raises (R107). -/
theorem step_of_illegalWord (hs : s.status = .running) (hw : s.mem.readWord s.pc = some w)
    (hlow : w.extractLsb' 0 2 = 0b11#2) (hnone : decodeWord w = none) :
    step s = .next (raise (.illegalInstruction s.pc w) s) := by
  have hlen : instrLength (s.mem.cell s.pc.toNat) = 4 := by
    rw [Memory.cell_of_readWord hw, instrLength, extractLsb'_lowByte, if_pos hlow]
  rw [step_of_running hs, fetchDecode_word hw hlen, hnone]

/-- Settles O7: the two steps that raise, and R107's classes one by one. -/
theorem illegalEncodingsRaise : Obligations.IllegalEncodingsRaise :=
  ⟨fun _ _ => step_of_parcel, fun _ _ => step_of_illegalWord,
    fun _ => ⟨decodeWord_of_unknown_opcode, decodeWord_load_none, decodeWord_store_none,
      decodeWord_branch_none, decodeWord_jalr_fence_none, decodeWord_slli_none,
      decodeWord_shiftRight_none, decodeWord_op_none, decodeWord_system_none,
      decodeWord_privileged_none⟩,
    by decide, by decide, by decide, by decide⟩

end Sys2Proof.Machine
end

section
/-! PROOFS. The opcode table and the decoder state the same decode (R105). -/

namespace Sys2Proof.Machine

variable {w p : Word} {name : String}

/-! ## The rows as conditions on the fields of a word -/

/-! A word under each mask of the table is the fields the mask covers. -/

theorem and_opcodeMask (w : Word) : w &&& 0x0000007F#32 = fieldAt (opcodeOf w) 0 := by
  refine BitVec.eq_of_getLsbD_eq fun i hi => ?_
  interval_cases i <;> simp [fieldAt, opcodeOf]

theorem and_funct3Mask (w : Word) :
    w &&& 0x0000707F#32 = fieldAt (funct3Of w) 12 ||| fieldAt (opcodeOf w) 0 := by
  refine BitVec.eq_of_getLsbD_eq fun i hi => ?_
  interval_cases i <;> simp [fieldAt, opcodeOf, funct3Of]

theorem and_funct7Mask (w : Word) : w &&& 0xFE00707F#32 =
    fieldAt (funct7Of w) 25 ||| fieldAt (funct3Of w) 12 ||| fieldAt (opcodeOf w) 0 := by
  refine BitVec.eq_of_getLsbD_eq fun i hi => ?_
  interval_cases i <;> simp [fieldAt, opcodeOf, funct3Of, funct7Of]

/-! A row is met exactly by the words with its values in the fields its mask covers; the premise says
that the pattern lies under the mask. -/

theorem matchesWord_opcode (hp : p &&& 0x0000007F#32 = p) :
    OpcodeRow.matchesWord ⟨name, p, 0x0000007F#32⟩ w = decide (opcodeOf w = p.extractLsb' 0 7) := by
  refine decide_eq_decide.2 ⟨?_, fun hop => ?_⟩
  · intro (hw : w &&& 0x0000007F#32 = p)
    subst hw
    refine BitVec.eq_of_getLsbD_eq fun i hi => ?_
    interval_cases i <;> simp [opcodeOf]
  · change w &&& 0x0000007F#32 = p
    rw [and_opcodeMask, hop, ← opcodeOf, ← and_opcodeMask, hp]

theorem matchesWord_funct3 (hp : p &&& 0x0000707F#32 = p) :
    OpcodeRow.matchesWord ⟨name, p, 0x0000707F#32⟩ w =
      decide (opcodeOf w = p.extractLsb' 0 7 ∧ funct3Of w = p.extractLsb' 12 3) := by
  refine decide_eq_decide.2 ⟨?_, ?_⟩
  · intro (hw : w &&& 0x0000707F#32 = p)
    subst hw
    constructor <;> refine BitVec.eq_of_getLsbD_eq fun i hi => ?_ <;> interval_cases i <;>
      simp [opcodeOf, funct3Of]
  · rintro ⟨hop, h3⟩
    change w &&& 0x0000707F#32 = p
    rw [and_funct3Mask, hop, h3, ← opcodeOf, ← funct3Of, ← and_funct3Mask, hp]

theorem matchesWord_funct7 (hp : p &&& 0xFE00707F#32 = p) :
    OpcodeRow.matchesWord ⟨name, p, 0xFE00707F#32⟩ w = decide (opcodeOf w = p.extractLsb' 0 7 ∧
      funct3Of w = p.extractLsb' 12 3 ∧ funct7Of w = p.extractLsb' 25 7) := by
  refine decide_eq_decide.2 ⟨?_, ?_⟩
  · intro (hw : w &&& 0xFE00707F#32 = p)
    subst hw
    refine ⟨?_, ?_, ?_⟩ <;> refine BitVec.eq_of_getLsbD_eq fun i hi => ?_ <;> interval_cases i <;>
      simp [opcodeOf, funct3Of, funct7Of]
  · rintro ⟨hop, h3, h7⟩
    change w &&& 0xFE00707F#32 = p
    rw [and_funct7Mask, hop, h3, h7, ← opcodeOf, ← funct3Of, ← funct7Of, ← and_funct7Mask, hp]

theorem matchesWord_whole :
    OpcodeRow.matchesWord ⟨name, p, 0xFFFFFFFF#32⟩ w = decide (w = p) := by
  have hmask : w &&& 0xFFFFFFFF#32 = w := BitVec.and_allOnes
  simp [OpcodeRow.matchesWord, hmask]

/-! ## A word that meets a row decodes to the row's instruction -/

/-- The word decodes to the row's instruction if it meets the row. -/
def DecodesAs (w : Word) (row : OpcodeRow) : Prop :=
  row.matchesWord w = true → (decodeWord w).map mnemonicOf = some row.mnemonic

theorem decodesAs_upper : ∀ row ∈ opcodeRowsUpper, DecodesAs w row := by
  simp +contextual [DecodesAs, opcodeRowsUpper, matchesWord_opcode, matchesWord_funct3,
    decodeWord_lui, decodeWord_auipc, decodeWord_jal, decodeWord_jalr, mnemonicOf]

theorem decodesAs_branch : ∀ row ∈ opcodeRowsBranch, DecodesAs w row := by
  simp +contextual [DecodesAs, opcodeRowsBranch, matchesWord_funct3, decodeWord_branch, decodeBranch,
    mnemonicOf]

theorem decodesAs_memory : ∀ row ∈ opcodeRowsMemory, DecodesAs w row := by
  simp +contextual [DecodesAs, opcodeRowsMemory, matchesWord_funct3, decodeWord_load, decodeLoad,
    decodeWord_store, decodeStore, mnemonicOf]

theorem decodesAs_opImm : ∀ row ∈ opcodeRowsOpImm, DecodesAs w row := by
  simp +contextual [DecodesAs, opcodeRowsOpImm, matchesWord_funct3, matchesWord_funct7,
    decodeWord_opImm, decodeOpImm, mnemonicOf]

theorem decodesAs_op : ∀ row ∈ opcodeRowsOp, DecodesAs w row := by
  simp +contextual [DecodesAs, opcodeRowsOp, matchesWord_funct7, decodeWord_op, decodeOp, mnemonicOf]

theorem decodeWord_whole_words : decodeWord 0x00000073#32 = some .ecall ∧
    decodeWord 0x00100073#32 = some .ebreak ∧ decodeWord 0x30200073#32 = some .mret := by decide

theorem decodesAs_system : ∀ row ∈ opcodeRowsSystem, DecodesAs w row := by
  simp +contextual [DecodesAs, opcodeRowsSystem, matchesWord_funct3, matchesWord_whole,
    decodeWord_whole_words, decodeWord_fence, decodeWord_system, decodeSystem, mnemonicOf]

theorem decodesAs_of_mem {row : OpcodeRow} (h : row ∈ opcodeRows) : DecodesAs w row := by
  simp only [opcodeRows, List.mem_append] at h
  obtain ((((h | h) | h) | h) | h) | h := h
  · exact decodesAs_upper row h
  · exact decodesAs_branch row h
  · exact decodesAs_memory row h
  · exact decodesAs_opImm row h
  · exact decodesAs_op row h
  · exact decodesAs_system row h

/-! ## A word that meets no row of its opcode is in one of R107's classes -/

/-- The word meets none of the rows. -/
def MeetsNone (w : Word) (rows : List OpcodeRow) : Prop := ∀ row ∈ rows, row.matchesWord w = false

theorem decodeWord_branch_of_meetsNone (hop : opcodeOf w = 0x63#7)
    (h : MeetsNone w opcodeRowsBranch) : decodeWord w = none := by
  have h3 : funct3Of w ∉ [0#3, 1#3, 4#3, 5#3, 6#3, 7#3] := by
    simpa [MeetsNone, opcodeRowsBranch, matchesWord_funct3, hop] using h
  have others : ∀ f : BitVec 3, f ∉ [0#3, 1#3, 4#3, 5#3, 6#3, 7#3] → f ∈ [2#3, 3#3] := by decide
  exact decodeWord_branch_none hop (others _ h3)

theorem decodeWord_load_of_meetsNone (hop : opcodeOf w = 0x03#7)
    (h : MeetsNone w opcodeRowsMemory) : decodeWord w = none := by
  have h3 : funct3Of w ∉ [0#3, 1#3, 2#3, 4#3, 5#3] := by
    simpa [MeetsNone, opcodeRowsMemory, matchesWord_funct3, hop] using h
  have others : ∀ f : BitVec 3, f ∉ [0#3, 1#3, 2#3, 4#3, 5#3] → f ∈ [3#3, 6#3, 7#3] := by decide
  exact decodeWord_load_none hop (others _ h3)

theorem decodeWord_store_of_meetsNone (hop : opcodeOf w = 0x23#7)
    (h : MeetsNone w opcodeRowsMemory) : decodeWord w = none := by
  have h3 : funct3Of w ∉ [0#3, 1#3, 2#3] := by
    simpa [MeetsNone, opcodeRowsMemory, matchesWord_funct3, hop] using h
  have others : ∀ f : BitVec 3, f ∉ [0#3, 1#3, 2#3] → f ∈ [3#3, 4#3, 5#3, 6#3, 7#3] := by decide
  exact decodeWord_store_none hop (others _ h3)

theorem decodeWord_opImm_of_meetsNone (hop : opcodeOf w = 0x13#7)
    (h : MeetsNone w opcodeRowsOpImm) : decodeWord w = none := by
  have hrows : funct3Of w ∉ [0#3, 2#3, 3#3, 4#3, 6#3, 7#3] ∧
      (funct3Of w = 1#3 → funct7Of w ≠ 0#7) ∧
      (funct3Of w = 5#3 → funct7Of w ≠ 0#7 ∧ funct7Of w ≠ 0b0100000#7) := by
    simpa [MeetsNone, opcodeRowsOpImm, matchesWord_funct3, matchesWord_funct7, hop, and_assoc,
      imp_and] using h
  obtain ⟨h3, hleft, hright⟩ := hrows
  have others : ∀ f : BitVec 3, f ∉ [0#3, 2#3, 3#3, 4#3, 6#3, 7#3] → f = 1#3 ∨ f = 5#3 := by decide
  obtain h1 | h5 := others _ h3
  · exact decodeWord_slli_none hop h1 (hleft h1)
  · exact decodeWord_shiftRight_none hop h5 (hright h5).1 (hright h5).2

theorem decodeWord_op_of_meetsNone (hop : opcodeOf w = 0x33#7)
    (h : MeetsNone w opcodeRowsOp) : decodeWord w = none := by
  have hzero (h7 : funct7Of w = 0#7) : funct3Of w ∉ [0#3, 1#3, 2#3, 3#3, 4#3, 5#3, 6#3, 7#3] := by
    simpa [MeetsNone, opcodeRowsOp, matchesWord_funct7, hop, h7] using h
  have hsub (h7 : funct7Of w = 0b0100000#7) : funct3Of w ∉ [0#3, 5#3] := by
    simpa [MeetsNone, opcodeRowsOp, matchesWord_funct7, hop, h7] using h
  have all : ∀ f : BitVec 3, f ∈ [0#3, 1#3, 2#3, 3#3, 4#3, 5#3, 6#3, 7#3] := by decide
  exact decodeWord_op_none hop (fun h7 => hzero h7 (all _)) fun h7 => hsub h7.1 h7.2

theorem decodeWord_fence_of_meetsNone (hop : opcodeOf w = 0x0F#7)
    (h : MeetsNone w opcodeRowsSystem) : decodeWord w = none := by
  refine decodeWord_jalr_fence_none (.inr hop) fun h3 => ?_
  simpa [opcodeRowsSystem, matchesWord_funct3, hop, h3] using h _ (List.mem_cons_self ..)

theorem decodeWord_system_of_meetsNone (hop : opcodeOf w = 0x73#7)
    (h : MeetsNone w opcodeRowsSystem) : decodeWord w = none := by
  have hrows : w ∉ [0x00000073#32, 0x00100073#32, 0x30200073#32] ∧
      funct3Of w ∉ [1#3, 2#3, 3#3, 5#3, 6#3, 7#3] := by
    simpa [MeetsNone, opcodeRowsSystem, matchesWord_funct3, matchesWord_whole, hop, and_assoc] using h
  obtain ⟨hw, h3⟩ := hrows
  have others : ∀ f : BitVec 3, f ∉ [1#3, 2#3, 3#3, 5#3, 6#3, 7#3] → f = 0#3 ∨ f = 4#3 := by decide
  obtain h0 | h4 := others _ h3
  · exact decodeWord_privileged_none hop h0 hw
  · exact decodeWord_system_none hop h4

/-- A word that meets no row of the table decodes to nothing. -/
theorem decodeWord_of_meetsNone (h : MeetsNone w opcodeRows) : decodeWord w = none := by
  simp only [MeetsNone, opcodeRows, List.forall_mem_append] at h
  obtain ⟨⟨⟨⟨⟨hupper, hbranch⟩, hmemory⟩, hopImm⟩, hop⟩, hsystem⟩ := h
  by_cases hknown : opcodeOf w ∈ decodedOpcodes
  case neg => exact decodeWord_of_unknown_opcode hknown
  simp only [decodedOpcodes, List.mem_cons, List.not_mem_nil, or_false] at hknown
  have hrows : opcodeOf w ∉ [0b0110111#7, 0b0010111#7, 0b1101111#7] ∧
      (opcodeOf w = 0b1100111#7 → funct3Of w ≠ 0#3) := by
    simpa [opcodeRowsUpper, matchesWord_opcode, matchesWord_funct3, and_assoc] using hupper
  obtain ⟨hwhole, hjalr⟩ := hrows
  obtain h | h | h | h | h | h | h | h | h | h | h := hknown
  iterate 3 exact absurd (by simp [h]) hwhole
  · exact decodeWord_jalr_fence_none (.inl h) (hjalr h)
  · exact decodeWord_branch_of_meetsNone h hbranch
  · exact decodeWord_load_of_meetsNone h hmemory
  · exact decodeWord_store_of_meetsNone h hmemory
  · exact decodeWord_opImm_of_meetsNone h hopImm
  · exact decodeWord_op_of_meetsNone h hop
  · exact decodeWord_fence_of_meetsNone h hsystem
  · exact decodeWord_system_of_meetsNone h hsystem

/-! ## No word meets two rows -/

/-- The patterns differ in a bit that both masks cover. -/
def OpcodeRow.disjoint (row row' : OpcodeRow) : Bool :=
  decide (row.pattern &&& row'.mask ≠ row'.pattern &&& row.mask)

/-- No word meets two disjoint rows. -/
theorem matchesWord_disjoint {row row' : OpcodeRow} (h : row.disjoint row' = true)
    (hw : row.matchesWord w = true) : row'.matchesWord w = false := by
  refine Bool.eq_false_iff.2 fun hw' => of_decide_eq_true h ?_
  rw [← of_decide_eq_true hw, ← of_decide_eq_true hw', BitVec.and_assoc, BitVec.and_assoc,
    BitVec.and_comm row.mask]

theorem opcodeRows_disjoint : opcodeRows.Pairwise (fun row row' => row.disjoint row' = true) := by
  decide

/-- A list no two of whose members can stand together has at most one. -/
theorem length_le_one_of_pairwise_false {α : Type} {xs : List α} (h : xs.Pairwise fun _ _ => False) :
    xs.length ≤ 1 := by
  match xs, h with
  | [], _ | [_], _ => simp
  | _ :: y :: _, h => exact ((List.pairwise_cons.1 h).1 y (List.mem_cons_self ..)).elim

/-- Settles O4: the row found fixes the branch of the decoder, a word of no row is in one of R107's
classes, and no two rows overlap. -/
theorem decodeMatchesOpcodeTable : Obligations.DecodeMatchesOpcodeTable := by
  refine ⟨fun w => ?decode, fun w => ?unique⟩
  case decode =>
    cases hfind : opcodeRows.find? (fun row => row.matchesWord w) with
    | none =>
      have hnone : MeetsNone w opcodeRows := fun row hrow => by
        simpa using List.find?_eq_none.1 hfind row hrow
      rw [decodeWord_of_meetsNone hnone]
      rfl
    | some row =>
      have hmeets := List.find?_some hfind
      exact decodesAs_of_mem (List.mem_of_find?_eq_some hfind) hmeets
  case unique =>
    refine length_le_one_of_pairwise_false (List.pairwise_filter.2 ?_)
    exact opcodeRows_disjoint.imp fun h hw hw' => by
      cases (matchesWord_disjoint h hw).symm.trans hw'

end Sys2Proof.Machine
end

section
/-! PROOFS. The OP-IMM instructions (R106, R160 to R168): their words, and their results. -/

namespace Sys2Proof.Machine

theorem alu_slt (a b : Word) : alu .slt a b = if a.toInt < b.toInt then 1#32 else 0#32 := by
  simp [alu, boolWord]

theorem alu_sltu (a b : Word) : alu .sltu a b = if a.toNat < b.toNat then 1#32 else 0#32 := by
  simp [alu, boolWord]

/-- A zero-extended 5-bit operand is its own shift amount (R94, R134). -/
theorem shiftAmount_zext5 (shamt : BitVec 5) : shiftAmount (zext5 shamt) = shamt.toNat := by
  have hfield : (zext5 shamt).extractLsb' 0 5 = shamt := by
    refine BitVec.eq_of_getLsbD_eq fun i hi => ?_
    simp [zext5, hi, show i < 32 by omega]
  rw [shiftAmount, hfield]

/-- An OP-IMM instruction completes in every state, with the ALU's result in rd. -/
theorem aluImmediate_wrote (op : AluOp) (rd rs1 : Reg) (b : Word) (s : State) {v : Word}
    (hv : alu op (readReg rs1 s) b = v) :
    ∃ t, aluImmediate op rd rs1 b s = .next t ∧ WroteReg rd v (s.pc + 4#32) s t :=
  ⟨_, rfl, hv ▸ wroteReg_retireWith rd _⟩

/-- Settles O23: each word by the OP-IMM decoder, each result by the ALU's. -/
theorem opImmResults : Obligations.OpImmResults := by
  refine ⟨fun w hop => ?words, fun rd rs1 imm s => ?immediates, fun rd rs1 shamt s => ?shifts⟩
  case words =>
    rw [decodeWord_opImm hop, decodeOpImm]
    refine ⟨?_, ?_, ?_, ?_, ?_, ?_, fun h3 h7 => ?_, fun h3 h7 => ?_, fun h3 h7 => ?_,
      fun h3 h7 => ?_, fun h3 h7 h7' => ?_⟩
    iterate 6 exact fun h3 => by simp [h3]
    iterate 4 simp [h3, h7]
    simp [h3, h7, h7']
  case immediates =>
    exact ⟨aluImmediate_wrote .add rd rs1 imm s rfl,
      aluImmediate_wrote .slt rd rs1 imm s (alu_slt _ _),
      aluImmediate_wrote .sltu rd rs1 imm s (alu_sltu _ _),
      aluImmediate_wrote .xor rd rs1 imm s rfl, aluImmediate_wrote .or rd rs1 imm s rfl,
      aluImmediate_wrote .and rd rs1 imm s rfl⟩
  case shifts =>
    refine ⟨aluImmediate_wrote .sll rd rs1 _ s ?_, aluImmediate_wrote .srl rd rs1 _ s ?_,
      aluImmediate_wrote .sra rd rs1 _ s ?_⟩ <;> rw [alu, shiftAmount_zext5]

end Sys2Proof.Machine
end

section
/-! PROOFS. The ALU and the branch comparator (R131 to R141): arithmetic modulo 2^32, single bits,
shifts, comparisons, and the corners. -/

namespace Sys2Proof.Machine

/-! ## Shifts -/

/-- The low five bits of a word are its value modulo 32 (R134). -/
theorem shiftAmount_eq (b : Word) : shiftAmount b = b.toNat % 32 := by
  rw [shiftAmount, BitVec.extractLsb'_toNat, Nat.shiftRight_zero]

/-- SLL brings in zeros at the bottom (R134). -/
theorem getLsbD_alu_sll (a b : Word) {i : Nat} (hi : i < 32) :
    (alu .sll a b).getLsbD i =
      if i < shiftAmount b then false else a.getLsbD (i - shiftAmount b) := by
  rw [alu, BitVec.getLsbD_shiftLeft]
  by_cases hlow : i < shiftAmount b <;> simp [hi, hlow]

/-- SRL brings in zeros at the top (R135). -/
theorem getLsbD_alu_srl (a b : Word) (i : Nat) :
    (alu .srl a b).getLsbD i =
      if i + shiftAmount b < 32 then a.getLsbD (i + shiftAmount b) else false := by
  rw [alu, BitVec.getLsbD_ushiftRight, Nat.add_comm]
  split
  · rfl
  · exact BitVec.getLsbD_of_ge _ _ (by omega)

/-- SRA brings in copies of bit 31 at the top (R136). -/
theorem getLsbD_alu_sra (a b : Word) {i : Nat} (hi : i < 32) :
    (alu .sra a b).getLsbD i =
      if i + shiftAmount b < 32 then a.getLsbD (i + shiftAmount b) else a.getLsbD 31 := by
  rw [alu, BitVec.getLsbD_sshiftRight, Nat.add_comm]
  simp [hi, BitVec.msb_eq_getLsbD_last]

/-- A left shift sees its amount modulo 32 only (R134). -/
theorem alu_sll_congr (a : Word) {b c : Word} (h : shiftAmount b = shiftAmount c) :
    alu .sll a b = alu .sll a c := by rw [alu, alu, h]

theorem alu_sll_zero (a : Word) : alu .sll a 0#32 = a := BitVec.shiftLeft_zero a

/-- Settles O12, by the bits of each shift. -/
theorem aluShifts : Obligations.AluShifts := by
  refine ⟨fun a b i hi => ?bits, fun a => ⟨?by32, ?by33⟩, by decide, by decide⟩
  case bits =>
    rw [← shiftAmount_eq]
    exact ⟨getLsbD_alu_sll a b hi, getLsbD_alu_srl a b i, getLsbD_alu_sra a b hi⟩
  case by32 =>
    rw [alu_sll_congr a (show shiftAmount 32#32 = shiftAmount 0#32 by decide), alu_sll_zero]
  case by33 => exact alu_sll_congr a (by decide)

/-! ## Arithmetic and bitwise operations -/

/-- Subtraction adds the two's complement of the second operand (R132). -/
theorem alu_sub_eq_add_not (a b : Word) : alu .sub a b = a + ~~~b + 1#32 := by
  rw [alu, BitVec.sub_eq_add_neg, BitVec.neg_eq_not_add, BitVec.add_assoc]

/-- Settles O10, by the values of sum and difference as naturals. -/
theorem aluAddSub : Obligations.AluAddSub := by
  refine ⟨fun a b => ⟨BitVec.toNat_add a b, alu_sub_eq_add_not a b, ?difference⟩, by decide⟩
  case difference => rw [alu, BitVec.toNat_sub, Nat.add_comm]

/-- Settles O11, by the bits of each operation. -/
theorem aluBitwise : Obligations.AluBitwise := fun _ _ _ =>
  ⟨BitVec.getLsbD_and, BitVec.getLsbD_or, BitVec.getLsbD_xor⟩

/-! ## Comparisons -/

/-- SLTU gives 1 exactly if a is below b as unsigned (R138). -/
theorem alu_sltu_eq_one (a b : Word) : alu .sltu a b = 1#32 ↔ a.toNat < b.toNat := by
  simp [alu_sltu]

/-- No word is below itself. -/
theorem alu_slt_self (a : Word) : alu .slt a a = 0#32 := by
  rw [alu_slt, if_neg (lt_irrefl _)]

/-- Zero is below every other word (R138). -/
theorem alu_sltu_zero_left (a : Word) : alu .sltu 0#32 a = 1#32 ↔ a ≠ 0#32 := by
  rw [alu_sltu_eq_one, BitVec.toNat_ne]
  exact Nat.pos_iff_ne_zero

/-- Only zero is below one (R138). -/
theorem alu_sltu_one_right (a : Word) : alu .sltu a 1#32 = 1#32 ↔ a = 0#32 := by
  rw [alu_sltu_eq_one, BitVec.toNat_eq]
  exact Nat.lt_one_iff

/-- Settles O13, by the two comparisons and their corners. -/
theorem aluCompare : Obligations.AluCompare :=
  ⟨fun a b => ⟨alu_slt a b, alu_sltu a b⟩,
    fun a => ⟨alu_slt_self a, alu_sltu_zero_left a, alu_sltu_one_right a⟩, by decide⟩

/-- GE is the negation of LT (R140). -/
theorem cmpCond_ge (a b : Word) : cmpCond .ge a b = !cmpCond .lt a b := by
  simp [cmpCond, ← decide_not]

/-- GEU is the negation of LTU (R140). -/
theorem cmpCond_geu (a b : Word) : cmpCond .geu a b = !cmpCond .ltu a b := by
  simp [cmpCond, ← decide_not]

/-- Settles O14: each condition decides its row of the table. -/
theorem branchComparator : Obligations.BranchComparator := fun a b =>
  ⟨decide_eq_true_iff, decide_eq_true_iff, decide_eq_true_iff, decide_eq_true_iff,
    decide_eq_true_iff, decide_eq_true_iff, cmpCond_ge a b, cmpCond_geu a b⟩

/-! ## The corners -/

/-- Settles O15: the eleven rows are closed, and the ALU evaluates each. -/
theorem aluCorners : Obligations.AluCorners := by
  unfold Obligations.AluCorners
  decide

end Sys2Proof.Machine
end

section
/-! PROOFS. The jumps (R150, R151): their words and their results, and a jump to itself (R295). -/

namespace Sys2Proof.Machine

variable {s : State}

/-! ## A jump to itself -/

/-- A write to x0 that is masked at the end of a step at the same PC gives back a state whose x0
holds 0 (R22, R23). -/
theorem retire_writeReg_x0 (hx0 : s.regs[0] = 0#32) (v : Word) :
    retire s.pc (writeReg 0#5 v s) = s := by
  have hregs : (retire s.pc (writeReg 0#5 v s)).regs = s.regs := by
    refine Vector.ext fun i hi => ?_
    by_cases h0 : i = 0
    · subst h0
      rw [retire_x0, hx0]
    · simp [retire, maskX0, writeReg, Ne.symm h0]
  calc retire s.pc (writeReg 0#5 v s)
      = { s with regs := (retire s.pc (writeReg 0#5 v s)).regs } := rfl
    _ = s := by rw [hregs]

/-- `jal x0, 0` gives back a state whose x0 holds 0 (R150). -/
theorem exec_jal_self (hx0 : s.regs[0] = 0#32) : exec (.jal 0#5 0#32) s = .next s := by
  have hpc : pcRelative 0#32 s = s.pc := BitVec.add_zero s.pc
  calc exec (.jal 0#5 0#32) s
      = .next (retire (pcRelative 0#32 s) (writeReg 0#5 (nextPc s) s)) := rfl
    _ = .next s := by rw [hpc, retire_writeReg_x0 hx0]

/-- A state that one step of a machine gives back is given back by any number of steps. -/
theorem run_of_step_self {M : Host.Core} {s : M.State} (h : M.step s = .next s) (k : Nat) :
    M.run k s = .next s := by
  induction k with
  | zero => rfl
  | succ k ih =>
    rw [Host.Core.run, h]
    exact ih

/-- Settles O52: the step performs `jal x0, 0`, which gives back the state, and so does every number
of steps, by induction on it. -/
theorem selfJumpNeverEnds : Obligations.SelfJumpNeverEnds := by
  intro s k ⟨hx0, _⟩ hs hw
  have hdecode : decodeWord 0x0000006F#32 = some (.jal 0#5 0#32) := by decide
  have hstep : step s = .next s :=
    (stepRunsDecoded s _ _ hs hw hdecode).trans (exec_jal_self hx0)
  exact run_of_step_self (M := Sys2Proof.core) hstep k

/-! ## Results -/

/-- Settles O26, by the decoder's JAL row and the completion of a jump. -/
theorem jalResult : Obligations.JalResult :=
  ⟨fun _ => decodeWord_jal, fun rd imm s => ⟨_, rfl, wroteReg_retire rd (nextPc s) (s.pc + imm)⟩⟩

/-- JALR completes in every state with the link in rd and the PC at its target (R151). -/
theorem exec_jalr_wrote (rd rs1 : Reg) (imm : Word) (s : State) {target : Word}
    (ht : jalrTarget rs1 imm s = target) :
    ∃ t, exec (.jalr rd rs1 imm) s = .next t ∧ WroteReg rd (s.pc + 4#32) target s t :=
  ⟨_, rfl, ht ▸ wroteReg_retire rd (nextPc s) _⟩

/-- The mask of R151 clears bit 0 and keeps every other bit. -/
theorem getLsbD_clearBit0 (v : Word) {i : Nat} (hi : i < 32) :
    (v &&& 0xFFFFFFFE#32).getLsbD i = (v.getLsbD i && decide (i ≠ 0)) := by
  have hmask : 0xFFFFFFFE#32 = ~~~1#32 := by decide
  rw [hmask, BitVec.getLsbD_and, BitVec.getLsbD_not, BitVec.getLsbD_one]
  simp [hi]

/-- Clearing bit 0 changes exactly the odd words (R151). -/
theorem clearBit0_ne_iff (v : Word) : v &&& 0xFFFFFFFE#32 ≠ v ↔ v.getLsbD 0 = true := by
  refine ⟨fun hne => by_contra fun heven => hne ?same, fun hodd heq => ?cleared⟩
  case same =>
    refine BitVec.eq_of_getLsbD_eq fun i hi => ?_
    rw [getLsbD_clearBit0 v hi]
    by_cases h0 : i = 0
    · subst h0
      rw [Bool.eq_false_of_not_eq_true heven]
      rfl
    · simp [h0]
  case cleared =>
    have hbit := getLsbD_clearBit0 v (i := 0) (by decide)
    rw [heq, hodd] at hbit
    cases hbit

/-- Settles O27: the decoder's JALR row by funct3, and the target for each value of the parameter,
with bit 0 as the only bit the two can differ in. -/
theorem jalrResult : Obligations.JalrResult := by
  refine ⟨fun w hop => ⟨fun h3 => ?row, fun h3 => decodeWord_jalr_fence_none (.inl hop) h3⟩,
    fun rd rs1 imm s => ⟨fun hkeep => exec_jalr_wrote rd rs1 imm s ?kept,
      fun hclear => exec_jalr_wrote rd rs1 imm s ?cleared, clearBit0_ne_iff _⟩⟩
  case row => rw [decodeWord_jalr hop, if_pos h3]
  case kept => simp [jalrTarget, hkeep, effectiveAddress]
  case cleared => simp [jalrTarget, hclear, effectiveAddress]

end Sys2Proof.Machine
end

section
/-! PROOFS. The OP instructions (R180 to R189): their words, and their results. -/

namespace Sys2Proof.Machine

/-- An OP instruction completes in every state, with the ALU's result in rd. -/
theorem aluRegister_wrote (op : AluOp) (rd rs1 rs2 : Reg) (s : State) {v : Word}
    (hv : alu op (readReg rs1 s) (readReg rs2 s) = v) :
    ∃ t, aluRegister op rd rs1 rs2 s = .next t ∧ WroteReg rd v (s.pc + 4#32) s t :=
  ⟨_, rfl, hv ▸ wroteReg_retireWith rd _⟩

/-- Settles O24: each word by the OP decoder, by funct7 and then funct3, each result by the ALU's;
the shifts take their amount modulo 32. -/
theorem opResults : Obligations.OpResults := by
  refine ⟨fun w hop => ?words, fun rd rs1 rs2 s => ?results⟩
  case words =>
    rw [decodeWord_op hop, decodeOp]
    refine ⟨fun h7 => ?base, fun h7 => ?alternate⟩
    case base =>
      rw [if_pos h7]
      refine ⟨?_, ?_, ?_, ?_, ?_, ?_, ?_, ?_⟩
      iterate 8 exact fun h3 => by simp [h3]
    case alternate =>
      rw [if_neg (by simp [h7]), if_pos h7]
      exact ⟨fun h3 => by simp [h3], fun h3 => by simp [h3]⟩
  case results =>
    refine ⟨aluRegister_wrote .add rd rs1 rs2 s rfl, aluRegister_wrote .sub rd rs1 rs2 s rfl,
      aluRegister_wrote .sll rd rs1 rs2 s ?sll,
      aluRegister_wrote .slt rd rs1 rs2 s (alu_slt _ _),
      aluRegister_wrote .sltu rd rs1 rs2 s (alu_sltu _ _),
      aluRegister_wrote .xor rd rs1 rs2 s rfl, aluRegister_wrote .srl rd rs1 rs2 s ?srl,
      aluRegister_wrote .sra rd rs1 rs2 s ?sra, aluRegister_wrote .or rd rs1 rs2 s rfl,
      aluRegister_wrote .and rd rs1 rs2 s rfl⟩
    case sll | srl | sra => rw [alu, shiftAmount_eq]

end Sys2Proof.Machine
end

section
/-! PROOFS. The loads (R200 to R204): their words, and their results where the span is mapped and
where it is not. -/

namespace Sys2Proof.Machine

variable {s : State} {rd : Reg} {a : Word} {value : Option Word}

/-- A load whose read delivered a value completes with it in rd (R62). -/
theorem finishLoad_wrote {v : Word} (h : value = some v) :
    ∃ t, finishLoad rd a value s = .next t ∧ WroteReg rd v (s.pc + 4#32) s t := by
  subst h
  exact ⟨_, rfl, wroteReg_retireWith rd v⟩

/-- A load whose read failed raises UnmappedAddress and changes nothing else (R62, R263). -/
theorem finishLoad_unmapped (h : value = none) : finishLoad rd a value s =
    .next { s with status := .faulted (.unmappedAddress a .load) } := by
  subst h
  rfl

/-- A byte or halfword load whose read delivered x completes with x extended in rd. -/
theorem finishLoad_extended {n : Nat} {read : Option (BitVec n)} {x : BitVec n}
    (h : read = some x) (ext : BitVec n → Word) :
    ∃ t, finishLoad rd a (read.map ext) s = .next t ∧ WroteReg rd (ext x) (s.pc + 4#32) s t :=
  finishLoad_wrote (congrArg (Option.map ext) h)

/-- A byte or halfword load whose read failed raises, whatever its extension. -/
theorem finishLoad_extended_unmapped {n : Nat} {read : Option (BitVec n)} (h : read = none)
    (ext : BitVec n → Word) : finishLoad rd a (read.map ext) s =
      .next { s with status := .faulted (.unmappedAddress a .load) } :=
  finishLoad_unmapped (congrArg (Option.map ext) h)

/-- Settles O29: each word by the LOAD decoder; each result by the end of a load, at the value read
and extended, or at the read that failed. -/
theorem loadResults : Obligations.LoadResults := by
  refine ⟨fun w hop => ?words, fun rd rs1 imm s => ⟨fun b hb => ?byte, fun h hh => ?half,
    fun v hv => finishLoad_wrote hv, fun hb => ?noByte, fun hh => ?noHalf,
    fun hv => finishLoad_unmapped hv⟩⟩
  case words =>
    rw [decodeWord_load hop, decodeLoad]
    refine ⟨?_, ?_, ?_, ?_, ?_⟩
    iterate 5 exact fun h3 => by simp [h3]
  case byte =>
    exact ⟨finishLoad_extended hb (BitVec.signExtend 32),
      finishLoad_extended hb (BitVec.setWidth 32)⟩
  case half =>
    exact ⟨finishLoad_extended hh (BitVec.signExtend 32),
      finishLoad_extended hh (BitVec.setWidth 32)⟩
  case noByte => exact ⟨finishLoad_extended_unmapped hb _, finishLoad_extended_unmapped hb _⟩
  case noHalf => exact ⟨finishLoad_extended_unmapped hh _, finishLoad_extended_unmapped hh _⟩

end Sys2Proof.Machine
end

section
/-! PROOFS. The stores (R210 to R212): their words, and their results where the span is mapped and
where it is not. -/

namespace Sys2Proof.Machine

variable {s : State} {a : Word} {n : Nat} {mem : Option Memory}

/-- A store whose write succeeded completes with the memory after it, behind itself (R63). -/
theorem finishStore_stored {m : Memory} {v : Word} (h : mem = some m)
    (hregions : m.regions = s.mem.regions)
    (hset : ∀ k < n, m.readByte (a + BitVec.ofNat 32 k) = some (v.extractLsb' (8 * k) 8))
    (hkept : ∀ b, ¬ inSpan a n b → m.readByte b = s.mem.readByte b) :
    ∃ t, finishStore a mem s = .next t ∧ Stored a v n s t := by
  subst h
  exact ⟨_, rfl, hset, hkept, hregions, fun r => readReg_retire r _ _, rfl, rfl, rfl, rfl⟩

/-- A store whose write failed raises UnmappedAddress and changes nothing else (R63, R263). -/
theorem finishStore_unmapped (h : mem = none) : finishStore a mem s =
    .next { s with status := .faulted (.unmappedAddress a .store) } := by
  subst h
  rfl

/-- A store of any width completes where the read of its width succeeds, and raises where it fails:
reads and writes obey the same span rule (R61). -/
theorem finishStore_by_read {w : Nat} {read : Option (BitVec w)}
    {write : Memory → Word → Word → Option Memory}
    (hwrite : (n, write) ∈ [(1, Memory.writeByte), (2, Memory.writeHalf), (4, Memory.writeWord)])
    (hread : read.isSome ↔ s.mem.covered a n = true) (v : Word) :
    (read ≠ none → ∃ t, finishStore a (write s.mem a v) s = .next t ∧ Stored a v n s t) ∧
    (read = none → finishStore a (write s.mem a v) s =
      .next { s with status := .faulted (.unmappedAddress a .store) }) := by
  obtain ⟨hmapped, hunmapped⟩ := writesSetTheirBytes s.mem a v n write hwrite
  refine ⟨fun h => ?mapped, fun h => ?unmapped⟩
  case mapped =>
    obtain ⟨m, hm, hregions, hset, hkept⟩ :=
      hmapped (hread.1 (Option.isSome_iff_ne_none.2 h))
    exact finishStore_stored hm hregions hset hkept
  case unmapped =>
    have hc : s.mem.covered a n = false := by simpa [h] using hread
    exact finishStore_unmapped (hunmapped hc)

/-- Settles O30: each word by the STORE decoder; each result by the end of a store of its width. -/
theorem storeResults : Obligations.StoreResults := by
  refine ⟨fun w hop => ?words, fun rs2 rs1 imm s => ?results⟩
  case words =>
    rw [decodeWord_store hop, decodeStore]
    exact ⟨fun h3 => by simp [h3], fun h3 => by simp [h3], fun h3 => by simp [h3]⟩
  case results =>
    obtain ⟨sb, sbUnmapped⟩ := finishStore_by_read (s := s) (write := Memory.writeByte) (by simp)
      Memory.readByte_isSome (readReg rs2 s)
    obtain ⟨sh, shUnmapped⟩ := finishStore_by_read (s := s) (write := Memory.writeHalf) (by simp)
      Memory.readHalf_isSome (readReg rs2 s)
    obtain ⟨sw, swUnmapped⟩ := finishStore_by_read (s := s) (write := Memory.writeWord) (by simp)
      Memory.readWord_isSome (readReg rs2 s)
    exact ⟨sb, sh, sw, sbUnmapped, shUnmapped, swUnmapped⟩

end Sys2Proof.Machine
end

section
/-! PROOFS. The branches (R220 to R225): their words, and their results by the comparator's
condition (R140). -/

namespace Sys2Proof.Machine

variable {cond : Cond} {rs1 rs2 : Reg} {s : State} {p : Prop} [Decidable p]

/-- A branch taken where p holds moves the PC to pc + immB if p and to pc + 4 if not, and changes
nothing else. -/
theorem branch_moved_if (hp : cmpCond cond (readReg rs1 s) (readReg rs2 s) = true ↔ p) (imm : Word) :
    ∃ t, branch cond rs1 rs2 imm s = .next t ∧
      Moved (if p then s.pc + imm else s.pc + 4#32) s t :=
  ⟨_, rfl, if_congr hp rfl rfl ▸ moved_retire _⟩

/-- A branch taken where p fails moves the PC to pc + 4 if p and to pc + immB if not, and changes
nothing else. -/
theorem branch_moved_if_not (hp : cmpCond cond (readReg rs1 s) (readReg rs2 s) = true ↔ ¬ p)
    (imm : Word) : ∃ t, branch cond rs1 rs2 imm s = .next t ∧
      Moved (if p then s.pc + 4#32 else s.pc + imm) s t :=
  ite_not p (s.pc + imm) (s.pc + 4#32) ▸ branch_moved_if hp imm

/-- Settles O28: each word by the BRANCH decoder; each result by the row of the comparator's table
for its condition, where BGE and BGEU are taken if their "less than" fails. -/
theorem branchResults : Obligations.BranchResults := by
  refine ⟨fun w hop => ?words, fun rs1 rs2 imm s => ?results⟩
  case words =>
    rw [decodeWord_branch hop, decodeBranch]
    refine ⟨?_, ?_, ?_, ?_, ?_, ?_⟩
    iterate 6 exact fun h3 => by simp [h3]
  case results =>
    obtain ⟨eq, ne, lt, ge, ltu, geu, -, -⟩ := branchComparator (readReg rs1 s) (readReg rs2 s)
    exact ⟨branch_moved_if eq imm, branch_moved_if_not ne imm, branch_moved_if lt imm,
      branch_moved_if_not (ge.trans not_lt.symm) imm, branch_moved_if ltu imm,
      branch_moved_if_not (geu.trans not_lt.symm) imm⟩

end Sys2Proof.Machine
end

section
/-! PROOFS. LUI and AUIPC (R230, R231): their words and their results; and the example words of the
rules, of every family (R105). -/

namespace Sys2Proof.Machine

/-! ## The example words -/

/-- Settles O9: the decoder, run on each of the eleven words. -/
theorem exampleWordsDecode : Obligations.ExampleWordsDecode := by
  unfold Obligations.ExampleWordsDecode
  decide

/-! ## Results -/

/-- Settles O25: each word by the decoder's row for its opcode; each result by the completion of an
instruction that writes rd, with imm for LUI and with pc + imm, of its own address, for AUIPC. -/
theorem upperImmediateResults : Obligations.UpperImmediateResults :=
  ⟨fun _ => ⟨decodeWord_lui, decodeWord_auipc⟩, fun rd imm s =>
    ⟨⟨_, rfl, wroteReg_retireWith rd imm⟩, ⟨_, rfl, wroteReg_retireWith rd (s.pc + imm)⟩⟩⟩

end Sys2Proof.Machine
end

section
/-! PROOFS. FENCE and the system instructions (R235, R240 to R253): their words and their results. -/

namespace Sys2Proof.Machine

variable {i : Instr} {s t : State} {w : Word} {o : EcallOutcome}

/-! ## FENCE -/

/-- Settles O31, by the decoder's FENCE row and the completion of an instruction that only moves. -/
theorem fenceIsNoOp : Obligations.FenceIsNoOp := by
  refine ⟨fun w hop => ⟨fun h3 => ?row, decodeWord_jalr_fence_none (.inr hop)⟩,
    fun _ _ _ _ _ s => ⟨_, rfl, moved_retire (nextPc s)⟩⟩
  case row => exact ⟨_, _, _, _, _, (decodeWord_fence hop).trans (if_pos h3)⟩

/-! ## The CSR instructions -/

/-- Settles O32: each word by the SYSTEM decoder; each result by the end of a CSR instruction, at the
value its store operation writes. -/
theorem csrResults : Obligations.CsrResults := by
  refine ⟨fun w hop => ?words, fun rd csr rs1 s => ?registers, fun rd csr uimm s => ?immediates⟩
  case words =>
    rw [decodeWord_system hop, decodeSystem]
    refine ⟨?_, ?_, ?_, ?_, ?_, ?_⟩
    iterate 6 exact fun h3 => by simp [h3]
  case registers | immediates =>
    exact ⟨⟨_, rfl, wroteCsr_retireCsr rd _ csr _⟩, ⟨_, rfl, wroteCsr_retireCsr rd _ csr _⟩,
      ⟨_, rfl, wroteCsr_retireCsr rd _ csr _⟩⟩

/-- In canonical form, writing a CSR's own value back changes nothing. -/
theorem csrWrite_csrRead_self {store : CsrStore} (h : Sparse.wf 0#32 store = true) (c : CsrIndex) :
    csrWrite c (csrRead c store) store = store := Sparse.write_read_self h

/-- Setting no bits leaves the store as it was (R247). -/
theorem readThenSet_zero {store : CsrStore} (h : Sparse.wf 0#32 store = true) (c : CsrIndex) :
    (readThenSet c 0#32 store).2 = store := by
  simp [readThenSet, csrWrite_csrRead_self h]

/-- Clearing no bits leaves the store as it was (R247). -/
theorem readThenClear_zero {store : CsrStore} (h : Sparse.wf 0#32 store = true) (c : CsrIndex) :
    (readThenClear c 0#32 store).2 = store := by
  rw [readThenClear, BitVec.not_zero, BitVec.and_allOnes, csrWrite_csrRead_self h]

/-- A CSR instruction with rd = x0 leaves every register reading as before (R247). -/
theorem readReg_retireCsr_x0 (r : Reg) (result : Word × CsrStore) (s : State) :
    readReg r (retireCsr 0#5 result s) = readReg r s := by
  simp [readReg_retireCsr]

/-- Settles O33: setting or clearing no bits writes back the value held, which the canonical store
does not show, and a write to x0 is not observed. -/
theorem suppressedCsrAccessUnobservable : Obligations.SuppressedCsrAccessUnobservable := by
  intro rd csr rs1 uimm s ⟨_, hwf, _, _⟩
  have setKept := readThenSet_zero hwf csr
  have clearKept := readThenClear_zero hwf csr
  exact ⟨⟨_, rfl, setKept⟩, ⟨_, rfl, clearKept⟩, ⟨_, rfl, setKept⟩, ⟨_, rfl, clearKept⟩,
    ⟨_, rfl, fun r => readReg_retireCsr_x0 r _ s⟩, ⟨_, rfl, fun r => readReg_retireCsr_x0 r _ s⟩⟩

/-! ## ECALL, EBREAK and MRET -/

/-- The one word that decodes to a given well-formed instruction is its encoding (R104). -/
theorem decodeWord_eq_some_iff (hwf : wellFormed i = true) :
    decodeWord w = some i ↔ w = encode i := by
  refine ⟨fun h => ?_, fun h => h ▸ decodeWord_encode hwf⟩
  obtain ⟨-, hw⟩ := encodes_of_decodeWord h
  exact hw.symm

/-- Where x0 holds 0 every register holds what it reads as. -/
theorem regs_eq_readReg (hx0 : s.regs[0] = 0#32) (r : Reg) :
    s.regs[r.toNat]'(r.isLt) = readReg r s := by
  by_cases h0 : r = 0#5
  · subst h0
    exact hx0.trans (readReg_zero s).symm
  · rw [readReg, if_neg h0]

/-- The ecall handler is given the registers as the program reads them (R248). -/
theorem handlerView_eq_readReg (s : State) (r : Reg) :
    (handlerView s)[r.toNat]'(r.isLt) = readReg r s :=
  (regs_eq_readReg (maskX0_x0 s) r).trans (readReg_maskX0 r s)

/-- The reference handler, in terms of a7 and a0 (R250). -/
theorem referenceHandler_handlerView (s : State) : referenceHandler (handlerView s) =
    if readReg 17#5 s = 93#32 then .exit (readReg 10#5 s) else .unhandled := by
  rw [← handlerView_eq_readReg s 17#5, ← handlerView_eq_readReg s 10#5]
  rfl

/-- An ECALL, by its handler's answer (R248, R249). -/
theorem exec_ecall (h : handlerAnswer s.params.ecallHandler (handlerView s) = o) :
    exec .ecall s = .next (ecallNext o s) := by
  rw [← h]
  rfl

/-- An ECALL answered Exit halts with the code and changes nothing else (R249). -/
theorem exec_ecall_exit {code : Word}
    (h : handlerAnswer s.params.ecallHandler (handlerView s) = .exit code) :
    ∃ t, exec .ecall s = .next t ∧ t.status = .halted code ∧ t.pc = s.pc ∧
      (∀ r, readReg r t = readReg r s) ∧ t.csrs = s.csrs ∧ t.mem = s.mem ∧ t.params = s.params :=
  ⟨halt code s, exec_ecall h, rfl, rfl, fun r => readReg_halt r s code, rfl, rfl, rfl⟩

/-- An ECALL answered Continue goes on behind itself and changes nothing else (R249). -/
theorem exec_ecall_goOn (h : handlerAnswer s.params.ecallHandler (handlerView s) = .goOn) :
    ∃ t, exec .ecall s = .next t ∧ Moved (s.pc + 4#32) s t :=
  ⟨_, exec_ecall h, moved_retire (nextPc s)⟩

/-- Settles O34: the word by the round trip, the words beside it by R107's class, and the next state
by each answer of the handler. -/
theorem ecallResult : Obligations.EcallResult := by
  refine ⟨fun w => decodeWord_eq_some_iff rfl, fun w => decodeWord_privileged_none,
    handlerView_eq_readReg, fun s hh => ?reference, fun s hh => ?other⟩
  case reference =>
    have answer : handlerAnswer s.params.ecallHandler (handlerView s) =
        if readReg 17#5 s = 93#32 then .exit (readReg 10#5 s) else .unhandled := by
      rw [hh]
      exact referenceHandler_handlerView s
    exact ⟨fun hexit => exec_ecall_exit (answer.trans (if_pos hexit)),
      fun hexit => exec_ecall (answer.trans (if_neg hexit))⟩
  case other =>
    have answer : handlerAnswer s.params.ecallHandler (handlerView s) =
        Config.otherHandler (handlerView s) := by
      rw [hh]
      rfl
    split
    next code ho => exact exec_ecall_exit (answer.trans ho)
    next ho => exact exec_ecall_goOn (answer.trans ho)
    next ho => exact exec_ecall (answer.trans ho)

/-- Settles O35: the word by the round trip, the result by the trap return. -/
theorem mretResult : Obligations.MretResult :=
  ⟨fun _ => decodeWord_eq_some_iff rfl, fun _ => ⟨_, rfl, moved_retire _⟩⟩

/-- Settles O36: the word by the round trip; what EBREAK does is to raise. -/
theorem ebreakResult : Obligations.EbreakResult :=
  ⟨fun _ => decodeWord_eq_some_iff rfl, fun _ => rfl⟩

end Sys2Proof.Machine
end

section
/-! PROOFS. The faults (R260 to R264, R267): where each comes from, in which order, and that a step
that raises changes the run status only. -/

namespace Sys2Proof.Machine

variable {i : Instr} {s t : State} {m : Memory} {a : Word} {reason : FaultReason}

/-! ## What a fault changes -/

/-- An instruction that faults in a running state raised, and did nothing else. -/
theorem ExecShape.eq_raise (h : ExecShape i s t) (hs : s.status = .running)
    (ht : t.status = .faulted reason) : t = raise reason s := by
  cases h with
  | raised reason' ht' =>
    subst ht'
    cases ht
    rfl
  | halted code hi ht' =>
    subst ht'
    cases ht
  | wrote _ _ _ _ ht' | moved _ ht' | csr _ _ _ _ _ ht' | stored _ _ _ _ _ ht' =>
    have kept : t.status = s.status := by rw [ht']; rfl
    cases ht.symm.trans (kept.trans hs)

/-- Settles O43: the front of a step raises, or the instruction it performed did. -/
theorem faultsArePrecise : Obligations.FaultsArePrecise := by
  intro s t reason h ht
  obtain ⟨hs, ⟨reason', -, rfl⟩ | ⟨i, -, he⟩⟩ := step_cases h
  · cases ht
    rfl
  · exact (exec_shape he).eq_raise hs ht

/-- An ECALL writes no CSR and leaves the PC or goes on behind itself, whatever its answer. -/
theorem ecallNext_csrs_pc (o : EcallOutcome) (s : State) : (ecallNext o s).csrs = s.csrs ∧
    ((ecallNext o s).pc = s.pc ∨ (ecallNext o s).pc = s.pc + 4#32) := by
  cases o with
  | exit code => exact ⟨rfl, .inl rfl⟩
  | goOn => exact ⟨rfl, .inr rfl⟩
  | unhandled => exact ⟨rfl, .inl rfl⟩

/-- Settles O46: a fault changes the run status only, and an ECALL ends in one of three states. -/
theorem noTrapEntry : Obligations.NoTrapEntry := by
  refine fun s t h => ⟨fun ⟨reason, ht⟩ => ?fault, fun hecall => ?ecall⟩
  case fault =>
    obtain rfl := faultsArePrecise s t reason h ht
    exact ⟨rfl, rfl⟩
  case ecall =>
    obtain ⟨-, ⟨reason, hf, -⟩ | ⟨i, hf, he⟩⟩ := step_cases h
    · cases hecall.symm.trans hf
    · cases hecall.symm.trans hf
      obtain rfl := next_inj he
      exact ecallNext_csrs_pc _ s

/-! ## The front of a step -/

/-- What the front of a step delivers at address a, and why: the fetch failed, a parcel or a word
that does not decode was fetched, or a word that decodes. -/
inductive Front (a : Word) (m : Memory) : Fetched → Prop
  | unmapped (hf : fetchBytes a m = none) : Front a m (.raises (.unmappedAddress a .fetch))
  | parcel {p : Half} (hp : m.readHalf a = some p) (hlow : p.extractLsb' 0 2 ≠ 0b11#2) :
    Front a m (.raises (.illegalInstruction a (p.setWidth 32)))
  | illegalWord {w : Word} (hw : m.readWord a = some w) (hd : decodeWord w = none) :
    Front a m (.raises (.illegalInstruction a w))
  | instr {w : Word} {i : Instr} (hw : m.readWord a = some w) (hd : decodeWord w = some i) :
    Front a m (.instr i)

/-- An instruction is two or four bytes long (R91). -/
theorem instrLength_cases (b : Byte) : instrLength b = 2 ∨ instrLength b = 4 := by
  by_cases h : b.extractLsb' 0 2 = 0b11#2
  · exact .inr (if_pos h)
  · exact .inl (if_neg h)

/-- The first byte of a mapped halfword is its least significant. -/
theorem Memory.cell_of_readHalf {p : Half} (h : m.readHalf a = some p) :
    m.cell a.toNat = p.extractLsb' 0 8 := by
  obtain ⟨-, hcell⟩ := Memory.readHalf_eq_some_iff.1 h
  exact hcell 0 (by decide)

/-- A halfword whose first byte says length 2 is a parcel (R91, R92). -/
theorem parcel_of_instrLength {p : Half} (hp : m.readHalf a = some p)
    (hlen : instrLength (m.cell a.toNat) = 2) : p.extractLsb' 0 2 ≠ 0b11#2 := by
  intro hlow
  rw [Memory.cell_of_readHalf hp, instrLength, extractLsb'_lowByte, if_pos hlow] at hlen
  cases hlen

/-- The front of a step, by what the fetch found at the address. -/
theorem front_fetchDecode (a : Word) (m : Memory) : Front a m (fetchDecode a m) := by
  obtain ⟨hnone, -⟩ | ⟨-, hc, -⟩ := fetchBytes_cases a m
  · have hfront : fetchDecode a m = .raises (.unmappedAddress a .fetch) := by
      simp [fetchDecode, hnone]
    exact hfront ▸ .unmapped hnone
  · obtain hlen | hlen := instrLength_cases (m.cell a.toNat) <;> rw [hlen] at hc
    · obtain ⟨p, hp⟩ := Option.isSome_iff_exists.1 (Memory.readHalf_isSome.2 hc)
      exact fetchDecode_half hp hlen ▸ .parcel hp (parcel_of_instrLength hp hlen)
    · obtain ⟨w, hw⟩ := Option.isSome_iff_exists.1 (Memory.readWord_isSome.2 hc)
      rw [fetchDecode_word hw hlen]
      cases hd : decodeWord w with
      | none => exact .illegalWord hw hd
      | some i => exact .instr hw hd

/-! ## An instruction's own faults -/

/-- The faults an instruction raises itself, each with its cause. -/
inductive OwnFault (i : Instr) (s : State) : FaultReason → Prop
  | load {a : Word} {n : Nat} (hspan : loadSpan i s = some (a, n))
    (hc : s.mem.covered a n = false) : OwnFault i s (.unmappedAddress a .load)
  | store {a : Word} {n : Nat} (hspan : storeSpan i s = some (a, n))
    (hc : s.mem.covered a n = false) : OwnFault i s (.unmappedAddress a .store)
  | ebreak (hi : i = .ebreak) : OwnFault i s (.illegalInstruction s.pc 0x00100073#32)
  | ecall (hi : i = .ecall)
    (ho : handlerAnswer s.params.ecallHandler (handlerView s) = .unhandled) :
    OwnFault i s .unhandledEnvironmentCall

/-- A load that faults failed to read its span. -/
theorem ownFault_of_load {rd : Reg} {n : Nat} {value : Option Word}
    (hspan : loadSpan i s = some (a, n)) (hread : value.isSome ↔ s.mem.covered a n = true)
    (hs : s.status = .running) (h : finishLoad rd a value s = .next t)
    (ht : t.status = .faulted reason) : OwnFault i s reason := by
  obtain ⟨v, -, hv⟩ | ⟨hnone, hv⟩ := finishLoad_cases (s := s) rd a value <;> rw [hv] at h <;>
    obtain rfl := next_inj h
  · cases hs.symm.trans ht
  · cases ht
    exact .load hspan (by simpa [hnone] using hread)

/-- A store that faults failed to write its span. -/
theorem ownFault_of_store {bytes : List Byte} (hspan : storeSpan i s = some (a, bytes.length))
    (hs : s.status = .running) (h : finishStore a (s.mem.writeBytes a bytes) s = .next t)
    (ht : t.status = .faulted reason) : OwnFault i s reason := by
  obtain ⟨hc, hm⟩ | ⟨-, m, hm, -⟩ := Memory.writeBytes_cases (m := s.mem) (a := a)
    (bytes := bytes) <;> rw [hm] at h <;> obtain rfl := next_inj h
  · cases ht
    exact .store hspan hc
  · cases hs.symm.trans ht

/-- An ECALL that faults was answered Unhandled. -/
theorem ownFault_of_ecall (hs : s.status = .running) (h : exec .ecall s = .next t)
    (ht : t.status = .faulted reason) : OwnFault .ecall s reason := by
  obtain ⟨code, -, hn⟩ | ⟨-, hn⟩ | ⟨ho, hn⟩ :=
    ecallNext_cases (s := s) (handlerAnswer s.params.ecallHandler (handlerView s)) <;>
    obtain rfl := hn ▸ next_inj h
  · cases ht
  · cases hs.symm.trans ht
  · cases ht
    exact .ecall rfl ho

/-- Every fault of an instruction performed in a running state is one of its own. -/
theorem ownFault_of_exec (hs : s.status = .running) (h : exec i s = .next t)
    (ht : t.status = .faulted reason) : OwnFault i s reason := by
  cases i with
  | lb _ _ _ | lbu _ _ _ => exact ownFault_of_load rfl (by simp [Memory.readByte_isSome]) hs h ht
  | lh _ _ _ | lhu _ _ _ => exact ownFault_of_load rfl (by simp [Memory.readHalf_isSome]) hs h ht
  | lw _ _ _ => exact ownFault_of_load rfl Memory.readWord_isSome hs h ht
  | sb _ _ _ | sh _ _ _ | sw _ _ _ => exact ownFault_of_store rfl hs h ht
  | ecall => exact ownFault_of_ecall hs h ht
  | ebreak =>
    obtain rfl := next_inj h
    cases ht
    exact .ebreak rfl
  | _ =>
    obtain rfl := next_inj h
    cases hs.symm.trans ht

/-! ## The order of the conditions (R267) -/

/-- The first byte of a fetch, as a cell. -/
theorem Memory.cell_of_readByte {b : Byte} (h : m.readByte a = some b) : m.cell a.toNat = b := by
  unfold Memory.readByte at h
  split at h
  · exact Option.some.inj h
  · cases h

/-- The fetch fails where the span of the first byte's length is not covered. -/
theorem fetchBytes_of_uncovered {b : Byte} {n w : Nat} {read : Option (BitVec w)}
    (hb : m.readByte a = some b) (hlen : instrLength b = n)
    (hread : read.isSome ↔ m.covered a n = true) (hnone : read = none) :
    fetchBytes a m = none := by
  have hc : m.covered a n = false := by simpa [hnone] using hread
  simp [fetchBytes_of_readByte hb, hlen, hc]

/-- Settles O42: the front of the step in the order of the fetch, and the instruction's own faults. -/
theorem faultPriority : Obligations.FaultPriority := by
  refine ⟨fun s hs => ⟨fun hnone => ?firstByte, fun b hb => ⟨fun hlen => ?two, fun hlen => ?four⟩⟩,
    fun i s t reason hs h ht => ?own⟩
  case firstByte => exact step_of_fetch_failed hs (fetchBytes_of_unmapped hnone)
  case two =>
    refine ⟨fun hnone => step_of_fetch_failed hs
      (fetchBytes_of_uncovered hb hlen Memory.readHalf_isSome hnone), fun p hp => ?_⟩
    exact step_of_parcel hs hp (parcel_of_instrLength hp ((Memory.cell_of_readByte hb).symm ▸ hlen))
  case four =>
    refine ⟨fun hnone => step_of_fetch_failed hs
      (fetchBytes_of_uncovered hb hlen Memory.readWord_isSome hnone),
      fun w hw => ⟨fun hd => ?_, fun i => stepRunsDecoded s w i hs hw⟩⟩
    rw [step_of_running hs, fetchDecode_word hw ((Memory.cell_of_readByte hb).symm ▸ hlen), hd]
    rfl
  case own =>
    cases ownFault_of_exec hs h ht with
    | load hspan _ => exact .inl ⟨_, _, hspan, rfl⟩
    | store hspan _ => exact .inr (.inl ⟨_, _, hspan, rfl⟩)
    | ebreak hi => exact .inr (.inr (.inl ⟨hi, rfl⟩))
    | ecall hi _ => exact .inr (.inr (.inr ⟨hi, rfl⟩))

/-! ## The origin of each fault (R260) -/

/-- Settles O44: a fault comes from the front of the step, for the reason the fetch found, or from
the instruction that was performed, whose word was at the PC. -/
theorem faultOrigins : Obligations.FaultOrigins := by
  intro s t reason h ht
  have front := front_fetchDecode s.pc s.mem
  obtain ⟨hs, ⟨reason', hf, rfl⟩ | ⟨i, hf, he⟩⟩ := step_cases h
  · cases ht
    rw [hf] at front
    cases front with
    | unmapped hnone => exact ⟨rfl, hnone⟩
    | parcel hp hlow => exact ⟨rfl, .inl ⟨_, hp, hlow, rfl⟩⟩
    | illegalWord hw hd => exact ⟨rfl, .inr ⟨hw, .inl hd⟩⟩
  · cases ownFault_of_exec hs he ht with
    | load hspan hc => exact ⟨i, _, hf, hspan, hc⟩
    | store hspan hc => exact ⟨i, _, hf, hspan, hc⟩
    | ebreak hi =>
      subst hi
      rw [hf] at front
      cases front with
      | instr hw hd =>
        obtain rfl := (decodeWord_eq_some_iff rfl).1 hd
        exact ⟨rfl, .inr ⟨hw, .inr hd⟩⟩
    | ecall hi ho => exact ⟨hi ▸ hf, ho⟩

end Sys2Proof.Machine
end

section
/-! PROOFS. The start of a run (R290), and a word placed from outside. -/

namespace Sys2Proof.Machine

variable {s : State} {m : Memory} {a : Word} {cells : List Host.Cell} {image : List ImageRegion}
  {lo j : Nat}

/-! ## Reset and run start -/

/-- Settles O54: the reset state is the start of a run from the empty image. -/
theorem resetMeetsInvariant : Obligations.ResetMeetsInvariant :=
  startMeetsInvariant Config.image Config.resetPc Config.params rfl

/-- The mapped regions of an image. -/
theorem Memory.ofImage_regions (image : List ImageRegion) : (Memory.ofImage image).regions =
    image.map fun r => { base := r.base, size := r.bytes.length } := rfl

/-- Regions in canonical form end inside the address space (R60). -/
theorem regionsFrom_end_le {regions : List Region} (h : regionsFrom lo regions = true) {r : Region}
    (hr : r ∈ regions) : r.base + r.size ≤ 2 ^ 32 := by
  induction regions generalizing lo with
  | nil => cases hr
  | cons x regions ih =>
    obtain ⟨-, -, hend, htail⟩ := regionsFrom_cons.1 h
    obtain rfl | hr := List.mem_cons.1 hr
    · exact hend
    · exact ih htail hr

/-- An image leaves every byte below its first region. -/
theorem Memory.read_layImage_below
    (h : regionsFrom lo (Memory.ofImage image).regions = true) (hj : j < lo) :
    Sparse.read unlistedByte (Memory.layImage cells image) j = Sparse.read unlistedByte cells j := by
  induction image generalizing cells lo with
  | nil => rfl
  | cons x image ih =>
    obtain ⟨hlo, -, -, htail⟩ := regionsFrom_cons.1 h
    have houtside : ¬ (x.base ≤ j ∧ j < x.base + x.bytes.length) := by
      dsimp only at hlo
      omega
    rw [Memory.layImage, ih htail (by dsimp only at *; omega), Memory.read_layBytes,
      dif_neg houtside]

/-- A byte of an image's region is the one the image gives: later regions lie above it. -/
theorem Memory.read_layImage (h : regionsFrom lo (Memory.ofImage image).regions = true)
    {r : ImageRegion} (hr : r ∈ image) {k : Nat} (hk : k < r.bytes.length) :
    Sparse.read unlistedByte (Memory.layImage cells image) (r.base + k) = r.bytes[k] := by
  induction image generalizing cells lo with
  | nil => cases hr
  | cons x image ih =>
    obtain ⟨-, -, -, htail⟩ := regionsFrom_cons.1 h
    obtain rfl | hr := List.mem_cons.1 hr
    · have hin : r.base ≤ r.base + k ∧ r.base + k < r.base + r.bytes.length := by omega
      rw [Memory.layImage, Memory.read_layImage_below htail hin.2, Memory.read_layBytes,
        dif_pos hin]
      simp
    · exact ih htail hr

/-- At run start a byte of an image's region reads as the image gives it (R290). -/
theorem Memory.readByte_ofImage (hwf : imageWf image = true) {r : ImageRegion} (hr : r ∈ image)
    {k : Nat} (hk : k < r.bytes.length) :
    (Memory.ofImage image).readByte (BitVec.ofNat 32 (r.base + k)) = some r.bytes[k] := by
  have hregion : (⟨r.base, r.bytes.length⟩ : Region) ∈ (Memory.ofImage image).regions :=
    List.mem_map_of_mem hr
  have hend : r.base + r.bytes.length ≤ 2 ^ 32 := regionsFrom_end_le hwf hregion
  have haddr : (BitVec.ofNat 32 (r.base + k)).toNat = r.base + k := by
    rw [BitVec.toNat_ofNat]
    omega
  have hc : (Memory.ofImage image).covered (BitVec.ofNat 32 (r.base + k)) 1 = true :=
    Memory.covered_iff.2 ⟨by omega, _, hregion, by dsimp only; omega, by dsimp only; omega⟩
  rw [Memory.readByte_of_covered hc, haddr]
  exact congrArg some (Memory.read_layImage hwf hr hk)

/-- Settles O56: the fields of the start state, and the bytes its image gives. -/
theorem startState : Obligations.StartState := fun image resetPc params =>
  ⟨fun r => readReg_start r image resetPc params, rfl, csrRead_nil, rfl, rfl,
    fun hwf _ hr _ => Memory.readByte_ofImage hwf hr⟩

/-! ## A word placed from outside -/

/-- Four bytes fit where a word is placed (log 9). -/
theorem placePc_fits (s : State) : (placePc s).toNat + 4 ≤ 2 ^ 32 := by
  unfold placePc
  split
  next h => exact h
  next => decide

/-- A word placed where four bytes fit is read back. -/
theorem Memory.readWord_place (m : Memory) (w : Word) (hfit : a.toNat + 4 ≤ 2 ^ 32) :
    (m.place a.toNat (bytesOfWord w)).readWord a = some w := by
  refine Memory.readWord_eq_some_iff.2
    ⟨Memory.covered_iff.2 ⟨hfit, mapRegions_maps m.regions a.toNat 4⟩, fun k hk => ?_⟩
  have hin : a.toNat ≤ a.toNat + k ∧ a.toNat + k < a.toNat + (lowBytes w 4).length := by
    rw [length_lowBytes]
    omega
  calc (m.place a.toNat (bytesOfWord w)).cell (a.toNat + k)
      = (lowBytes w 4)[a.toNat + k - a.toNat]'(by omega) :=
        Memory.read_layBytes.trans (dif_pos hin)
    _ = w.extractLsb' (8 * k) 8 := by rw [getElem_lowBytes, Nat.add_sub_cancel_left]

/-- Placing a word keeps the invariant. -/
theorem Inv_placeWord (w : Word) (h : s.Inv) : (placeWord w s).Inv := by
  obtain ⟨hx0, hcsrs, hidx, hmem⟩ := h
  exact ⟨hx0, hcsrs, hidx, Memory.wf_place hmem (by decide : 0 < 4) (placePc_fits s)⟩

/-- The table word of 32 bits is the word itself. -/
theorem tableWord_toNat (w : Word) : tableWord 32 w.toNat = w := by
  rw [tableWord, Nat.mod_eq_of_lt w.isLt, BitVec.ofNat_toNat, BitVec.setWidth_eq]

/-- Settles O58: the memory with the word placed is canonical, and the next step reads the word back
and performs what it decodes to. -/
theorem placedWordRunsNext : Obligations.PlacedWordRunsNext := by
  refine ⟨fun s nbits w => Inv_placeWord (tableWord nbits w), fun s i hwf => ?_⟩
  rw [State.withFetchWord, tableWord_toNat]
  exact stepRunsDecoded _ (encode i) i rfl (Memory.readWord_place s.mem _ (placePc_fits s))
    (decodeWord_encode hwf)

end Sys2Proof.Machine
end
